-- ==== Sys2Proof/Word.lean ====
section
/-!
DEFINITION. The plain data of the KCP core: signed bytes, 16-bit words, source text, and the names the spec
gives to variables, flags, conditions and modes (spec/00_scope.md, spec/10_state.md).
-/

namespace Sys2Proof

/-- The pattern of a signed byte (R7, R9): bit 0 is the least significant, bit 7 the sign. Its value is `toInt`. -/
abbrev Byte := BitVec 8

/-- An ISA-mode instruction word (R71). -/
abbrev Word := BitVec 16

/-- A source line or a debug string (R50, R86), as its characters. -/
abbrev Text := List Char

/-- The two execution modes (R2, R36). -/
inductive Mode where
  | isa
  | micro
deriving DecidableEq, Repr

/-- The nine variables, in the order of their register ids (R20, R21). -/
inductive Var where
  | q
  | w
  | e
  | r
  | a
  | s
  | d
  | z
  | x
deriving DecidableEq, Repr

/-- The four flags (R27). -/
inductive FlagName where
  | z
  | n
  | v
  | c
deriving DecidableEq, Repr

/-- The eight branch conditions, in the order of their codes (R78). -/
inductive Cond where
  | eq
  | ne
  | pl
  | mi
  | vc
  | vs
  | cc
  | cs
deriving DecidableEq, Repr

end Sys2Proof
end

