-- ==== Sys2Proof/Syntax.lean ====
section
/-!
DEFINITION. The ISA-mode instructions: one constructor for each row of spec/opcode_table.json (R75, R84), with the
operand fields the row uses (R72). Bits that a row ignores (R80) are no operands.
-/

namespace Sys2Proof

/-- `rd` is the `dst4` field as a register id, `rs` the whole of `arg8` as a register id (R74), `imm` a signed
byte (R73), `disp` a signed displacement in items (R104). -/
inductive Instr where
  | ext  (imm : Byte)
  | nop
  | halt
  | mov  (rd : BitVec 4) (rs : Byte)
  | movi (rd : BitVec 4) (imm : Byte)
  | add  (rd : BitVec 4) (rs : Byte)
  | addi (rd : BitVec 4) (imm : Byte)
  | sub  (rd : BitVec 4) (rs : Byte)
  | subi (rd : BitVec 4) (imm : Byte)
  | and  (rd : BitVec 4) (rs : Byte)
  | or   (rd : BitVec 4) (rs : Byte)
  | xor  (rd : BitVec 4) (rs : Byte)
  | shl  (rd : BitVec 4)
  | shr  (rd : BitVec 4)
  | neg  (rd : BitVec 4)
  | cmp  (rd : BitVec 4) (rs : Byte)
  /-- The pair EXT `imm`, CMP `rd` (R79, R203): two words, one step. -/
  | cmpi (rd : BitVec 4) (imm : Byte)
  | jmp  (disp : Byte)
  | beq  (disp : Byte)
  | bne  (disp : Byte)
  | bpl  (disp : Byte)
  | bmi  (disp : Byte)
  | bvc  (disp : Byte)
  | bvs  (disp : Byte)
  | bcc  (disp : Byte)
  | bcs  (disp : Byte)
  /-- Opcode 0xF with `dst4` in 8..15 (R82); `low` is the low three bits of `dst4`. -/
  | reserved (low : BitVec 3) (disp : Byte)
deriving DecidableEq, Repr

end Sys2Proof
end

