-- ==== Sys2Proof/Decode.lean ====
section
/-!
DEFINITION. The decoder and the encoder of spec/30_encoding.md Part A. `decodeWord` is total on words (R84);
`decode` reads one instruction from a list of words and rejects, by name, only a list that ends too early.
-/

namespace Sys2Proof

/-- The field `op4 = word[15:12]` (R71). -/
def op4 (w : Word) : BitVec 4 := w.extractLsb' 12 4

/-- The field `dst4 = word[11:8]` (R71). -/
def dst4 (w : Word) : BitVec 4 := w.extractLsb' 8 4

/-- The field `arg8 = word[7:0]` (R71). -/
def arg8 (w : Word) : Byte := w.extractLsb' 0 8

/-- `word = op4 * 4096 + dst4 * 256 + arg8` (R71). -/
def mkWord (op dst : BitVec 4) (arg : Byte) : Word := op ++ dst ++ arg

/-- Opcode 0xF: the condition stands in `dst4`, codes 8..15 are reserved (R78, R82). -/
def decodeBranch (dst : BitVec 4) (arg : Byte) : Instr :=
  match dst.toNat with
  | 0 => .beq arg
  | 1 => .bne arg
  | 2 => .bpl arg
  | 3 => .bmi arg
  | 4 => .bvc arg
  | 5 => .bvs arg
  | 6 => .bcc arg
  | 7 => .bcs arg
  | _ => .reserved (dst.extractLsb' 0 3) arg

/-- The opcode map of R75, with EXT told from NOP by the sentinel 0xE (R76) and SHL from SHR by bit 0 (R77). -/
def decodeFields (op dst : BitVec 4) (arg : Byte) : Instr :=
  match op.toNat with
  | 0x0 => if dst = 0xE#4 then .ext arg else .nop
  | 0x1 => .halt
  | 0x2 => .mov dst arg
  | 0x3 => .movi dst arg
  | 0x4 => .add dst arg
  | 0x5 => .addi dst arg
  | 0x6 => .sub dst arg
  | 0x7 => .subi dst arg
  | 0x8 => .and dst arg
  | 0x9 => .or dst arg
  | 0xA => .xor dst arg
  | 0xB => if arg.getLsbD 0 then .shr dst else .shl dst
  | 0xC => .neg dst
  | 0xD => .cmp dst arg
  | 0xE => .jmp arg
  | _ => decodeBranch dst arg

/-- One word (R84, R136). The pair CMPI is not a word (R79): its second word decodes to `cmp`. -/
def decodeWord (w : Word) : Instr := decodeFields (op4 w) (dst4 w) (arg8 w)

/-- Why a list of words or bytes holds no instruction. -/
inductive DecodeError where
  /-- There is no word left. -/
  | endOfStream
  /-- A single byte stands where a two-byte word was wanted. -/
  | halfWord
deriving DecidableEq, Repr

/-- The instruction that a word makes with the word after it: an EXT directly before a CMP is the CMPI pair
(R79, R203), and every other word stands alone. -/
def pairWith (i : Instr) (following : Option Instr) : Instr :=
  match i, following with
  | .ext imm, some (.cmp rd _) => .cmpi rd imm
  | i, _ => i

/-- How many words an instruction takes (R70, R79). -/
def Instr.size : Instr → Nat
  | .cmpi _ _ => 2
  | _ => 1

/-- The first instruction of a list of words, and the words after it. -/
def decode : List Word → Except DecodeError (Instr × List Word)
  | [] => .error .endOfStream
  | w :: ws =>
    let i := pairWith (decodeWord w) (ws.head?.map decodeWord)
    .ok (i, ws.drop (i.size - 1))

/-- The words of an instruction, with 0 in every ignored bit (R80, R113). -/
def encode : Instr → List Word
  | .ext imm => [mkWord 0x0 0xE imm]
  | .nop => [mkWord 0x0 0x0 0x00]
  | .halt => [mkWord 0x1 0x0 0x00]
  | .mov rd rs => [mkWord 0x2 rd rs]
  | .movi rd imm => [mkWord 0x3 rd imm]
  | .add rd rs => [mkWord 0x4 rd rs]
  | .addi rd imm => [mkWord 0x5 rd imm]
  | .sub rd rs => [mkWord 0x6 rd rs]
  | .subi rd imm => [mkWord 0x7 rd imm]
  | .and rd rs => [mkWord 0x8 rd rs]
  | .or rd rs => [mkWord 0x9 rd rs]
  | .xor rd rs => [mkWord 0xA rd rs]
  | .shl rd => [mkWord 0xB rd 0x00]
  | .shr rd => [mkWord 0xB rd 0x01]
  | .neg rd => [mkWord 0xC rd 0x00]
  | .cmp rd rs => [mkWord 0xD rd rs]
  | .cmpi rd imm => [mkWord 0x0 0xE imm, mkWord 0xD rd 0x00]
  | .jmp disp => [mkWord 0xE 0x0 disp]
  | .beq disp => [mkWord 0xF 0x0 disp]
  | .bne disp => [mkWord 0xF 0x1 disp]
  | .bpl disp => [mkWord 0xF 0x2 disp]
  | .bmi disp => [mkWord 0xF 0x3 disp]
  | .bvc disp => [mkWord 0xF 0x4 disp]
  | .bvs disp => [mkWord 0xF 0x5 disp]
  | .bcc disp => [mkWord 0xF 0x6 disp]
  | .bcs disp => [mkWord 0xF 0x7 disp]
  | .reserved low disp => [mkWord 0xF (1#1 ++ low) disp]

/-- The two bytes of a word: byte 0 is `op4 * 16 + dst4`, byte 1 is `arg8` (R57). -/
def wordBytes (w : Word) : List Byte := [w.extractLsb' 8 8, w.extractLsb' 0 8]

/-- The words of a byte string, first byte high (R57). -/
def wordsOfBytes : List Byte → Except DecodeError (List Word)
  | [] => .ok []
  | [_] => .error .halfWord
  | hi :: lo :: rest =>
    match wordsOfBytes rest with
    | .ok ws => .ok ((hi ++ lo) :: ws)
    | .error e => .error e

/-- The first instruction of a byte string. -/
def decodeBytes (bs : List Byte) : Except DecodeError (Instr × List Word) :=
  match wordsOfBytes bs with
  | .ok ws => decode ws
  | .error e => .error e

/-- The words of an instruction whose bits are `w`, numbered as spec/opcode_table.json numbers them: the first word
lowest. The longest instruction has two words (CMPI); the bits above `nbits` are 0. -/
def tableWords (nbits w : Nat) : List Word :=
  let bits := w % 2 ^ nbits
  [BitVec.ofNat 16 bits, BitVec.ofNat 16 (bits / 2 ^ 16)]

/-- What the decoder reads from the words `tableWords` lays out, through their bytes. -/
def decodeTableWord (nbits w : Nat) : Option Instr :=
  match decodeBytes ((tableWords nbits w).flatMap wordBytes) with
  | .ok (i, _) => some i
  | .error _ => none

/-- A row of spec/opcode_table.json: a word belongs to it when `word AND mask = pattern`. -/
structure OpcodeRow where
  mnemonic : String
  mask     : Word
  pattern  : Word
deriving DecidableEq, Repr

/-- The one-word rows of the table, in its order (R84). The row of CMPI is the pair of rows EXT and CMP. -/
def opcodeRows : List OpcodeRow :=
  [⟨"EXT", 0xFF00#16, 0x0E00#16⟩, ⟨"NOP", 0xF000#16, 0x0000#16⟩, ⟨"HALT", 0xF000#16, 0x1000#16⟩,
   ⟨"MOV", 0xF000#16, 0x2000#16⟩, ⟨"MOVI", 0xF000#16, 0x3000#16⟩, ⟨"ADD", 0xF000#16, 0x4000#16⟩,
   ⟨"ADDI", 0xF000#16, 0x5000#16⟩, ⟨"SUB", 0xF000#16, 0x6000#16⟩, ⟨"SUBI", 0xF000#16, 0x7000#16⟩,
   ⟨"AND", 0xF000#16, 0x8000#16⟩, ⟨"OR", 0xF000#16, 0x9000#16⟩, ⟨"XOR", 0xF000#16, 0xA000#16⟩,
   ⟨"SHL", 0xF001#16, 0xB000#16⟩, ⟨"SHR", 0xF001#16, 0xB001#16⟩, ⟨"NEG", 0xF000#16, 0xC000#16⟩,
   ⟨"CMP", 0xF000#16, 0xD000#16⟩, ⟨"JMP", 0xF000#16, 0xE000#16⟩] ++
  [⟨"BEQ", 0xFF00#16, 0xF000#16⟩, ⟨"BNE", 0xFF00#16, 0xF100#16⟩, ⟨"BPL", 0xFF00#16, 0xF200#16⟩,
   ⟨"BMI", 0xFF00#16, 0xF300#16⟩, ⟨"BVC", 0xFF00#16, 0xF400#16⟩, ⟨"BVS", 0xFF00#16, 0xF500#16⟩,
   ⟨"BCC", 0xFF00#16, 0xF600#16⟩, ⟨"BCS", 0xFF00#16, 0xF700#16⟩, ⟨"(reserved)", 0xF800#16, 0xF800#16⟩]

/-- The first row of the table that a word fits (R84). -/
def tableRow (w : Word) : Option OpcodeRow := opcodeRows.find? (fun row => w &&& row.mask == row.pattern)

/-- The table's mnemonic of an instruction. -/
def Instr.mnemonic : Instr → String
  | .ext _ => "EXT"
  | .nop => "NOP"
  | .halt => "HALT"
  | .mov _ _ => "MOV"
  | .movi _ _ => "MOVI"
  | .add _ _ => "ADD"
  | .addi _ _ => "ADDI"
  | .sub _ _ => "SUB"
  | .subi _ _ => "SUBI"
  | .and _ _ => "AND"
  | .or _ _ => "OR"
  | .xor _ _ => "XOR"
  | .shl _ => "SHL"
  | .shr _ => "SHR"
  | .neg _ => "NEG"
  | .cmp _ _ => "CMP"
  | .cmpi _ _ => "CMPI"
  | .jmp _ => "JMP"
  | .beq _ => "BEQ"
  | .bne _ => "BNE"
  | .bpl _ => "BPL"
  | .bmi _ => "BMI"
  | .bvc _ => "BVC"
  | .bvs _ => "BVS"
  | .bcc _ => "BCC"
  | .bcs _ => "BCS"
  | .reserved _ _ => "(reserved)"

end Sys2Proof
end

