-- ==== Sys2Proof/Config.lean ====
section
/-!
DEFINITION. The implementation parameters of spec/00_scope.md R8 that keep a choice (spec/93 Part 3). They are
fixed for the life of a CPU; State carries them, so that every statement about a state holds for each of their
values (log entry 2).
-/

namespace Sys2Proof

/-- `C_SUB`: what C holds after a subtraction (R8, R161). -/
inductive CSub where
  | borrow
  | notBorrow
deriving DecidableEq, Repr

/-- `LOGIC_VC`: what AND, OR and XOR do to V and C (R8, R162). -/
inductive LogicVC where
  | clear
  | unchanged
deriving DecidableEq, Repr

/-- The parameters of R8 besides `MODE` and `PROGRAM`. `pcBits` is `PC_BITS`: `none` is the unbounded PC of R26,
`some n` a sized build, whose loader refuses the programs R26 excludes. -/
structure Params where
  cSub        : CSub
  logicVC     : LogicVC
  strictParse : Bool
  pcBits      : Option Nat
deriving DecidableEq, Repr

/-- The values R8 takes. -/
def Params.default : Params :=
  { cSub := .borrow, logicVC := .clear, strictParse := false, pcBits := none }

end Sys2Proof
end

