-- ==== Sys2Proof/Machine/LineSyntax.lean ====
section
/-!
DEFINITION. The operations a source line stands for (spec/30_encoding.md R91, R92): what the Line Parser yields
and micro mode executes (R137). They have no bit patterns.
-/

namespace Sys2Proof.Machine

/-- An operand `P` of an assignment line: a variable or an immediate (R92). The immediate is the integer as
written (R88). -/
inductive Operand where
  | var (v : Var)
  | imm (n : Int)
deriving DecidableEq, Repr

/-- The line forms of R91 and R92. -/
inductive LineOp where
  | nop
  | halt
  /-- A line `name:` (R172). -/
  | label (name : Text)
  | print (v : Var)
  | mov (v1 v2 : Var)
  | movi (v : Var) (n : Int)
  | add (v1 v2 : Var)
  | addi (v : Var) (n : Int)
  | sub (v1 v2 : Var)
  | subi (v : Var) (n : Int)
  | neg (v : Var)
  | and (v1 v2 : Var)
  | or (v1 v2 : Var)
  | xor (v1 v2 : Var)
  | shl (v : Var)
  | shr (v : Var)
  | cmp (v1 v2 : Var)
  | cmpi (v : Var) (n : Int)
  | jmp (target : Text)
  | branch (c : Cond) (target : Text)
  /-- `X = literal` and `X = Y` (R230, R231). -/
  | assign (dst : Var) (p : Operand)
  /-- `X = A + B` (R232). -/
  | assignAdd (dst : Var) (a b : Operand)
  /-- `X = A - B` (R233). -/
  | assignSub (dst : Var) (a b : Operand)
  /-- A line that matches no form: it runs as NOP (R93). -/
  | unparseable (line : Text)
deriving DecidableEq, Repr

end Sys2Proof.Machine
end

