-- ==== Sys2Proof/Machine/State.lean ====
section
/-!
DEFINITION. The state of the KCP core (spec/10_state.md), as plain data, and its value at power-on (R44, R274).
The cells of the Memory Cell Store (R53) are `vars`, `scratch` and `mirror`; the CPU's own registers are the rest.
-/

namespace Sys2Proof.Machine

/-- The nine variables (R20). -/
structure Vars where
  q : Byte
  w : Byte
  e : Byte
  r : Byte
  a : Byte
  s : Byte
  d : Byte
  z : Byte
  x : Byte
deriving DecidableEq, Repr

/-- Four booleans (R27): the CPU's flags, and the store's mirror of them (R30). -/
structure Flags where
  z : Bool
  n : Bool
  v : Bool
  c : Bool
deriving DecidableEq, Repr

/-- The scratch cells (R39, R40): bit `k` of `src1` is the cell `SRC1[k]`, and so on. -/
structure Scratch where
  src1 : Byte
  src2 : Byte
  res  : Byte
  cy   : Bool
deriving DecidableEq, Repr

/-- One item of the ISA-mode program: the 16 architectural bits and a debug string (R50, R70). -/
structure IsaItem where
  word : Word
  text : Text
deriving DecidableEq, Repr

/-- `PROGRAM` (R50), and with it `MODE` (R36) and, in micro mode, `labels` (R37). -/
inductive Program where
  | isa (items : List IsaItem)
  | micro (lines : List Text) (labels : List (Text × Nat))
deriving DecidableEq, Repr

/-- The fault kinds of R241. -/
inductive FaultKind where
  | unresolvedLabel
  | malformedInstruction
  | branchTargetNegative
deriving DecidableEq, Repr

/-- The third component of a fault record (R241): the word's text, the label name, or the target index. -/
inductive FaultInfo where
  | text (t : Text)
  | label (name : Text)
  | target (t : Int)
deriving DecidableEq, Repr

/-- `last_fault` (R35): the kind, the index of the faulting item, and the information of R241. -/
structure FaultRecord where
  kind : FaultKind
  pc   : Nat
  info : FaultInfo
deriving DecidableEq, Repr

/-- The phase events of R143, with what R141 and R142 report in them. -/
inductive Event where
  | fetchWord (pc : Nat) (ir : Word)
  | decodeWord (op dst : BitVec 4) (arg : Byte)
  | fetchLine (pc : Nat) (line : Text)
  | decodeLine (op : LineOp)
  | execute
  | writeback
deriving DecidableEq, Repr

/-- The machine. `params` and `program` change only by a load (R52); `events` and `output` are logs of what the core
reported to its observers, and nothing in the core reads them (R143, R173, log entry 7). -/
structure State where
  params    : Params
  program   : Program
  pc        : Nat
  flags     : Flags
  halted    : Bool
  pend      : Option Byte
  ir        : Word
  lastFault : Option FaultRecord
  vars      : Vars
  scratch   : Scratch
  mirror    : Flags
  events    : List Event
  output    : List (Var × Byte)
deriving DecidableEq, Repr

/-- Why a step answers no state. The faults of R241 are not among them: they are next states (R250). -/
inductive Fault where
  /-- Raised by `step` alone, on a CPU whose `halted` is true: a halted state has no successor (spec/93 U22,
  spec/92 D18). Safe: no claim about a next state can use it. The operation `step()` is `stepOp`. -/
  | halted
deriving DecidableEq, Repr

/-- Why an instruction has no meaning. -/
inductive Refusal where
  /-- An arm of `exec` that has no meaning yet. No arm raises it: every row of the table has a meaning. Safe. -/
  | notModelled (mnemonic : String)
deriving DecidableEq, Repr

/-- What a meaning answers. -/
abbrev Result := Host.Outcome State Fault Refusal

/-- All four flags false (R31). -/
def Flags.clear : Flags := { z := false, n := false, v := false, c := false }

/-- All nine variables 0 (R44). -/
def Vars.zero : Vars :=
  { q := 0#8, w := 0#8, e := 0#8, r := 0#8, a := 0#8, s := 0#8, d := 0#8, z := 0#8, x := 0#8 }

/-- All 25 scratch cells 0 (R44). -/
def Scratch.zero : Scratch := { src1 := 0#8, src2 := 0#8, res := 0#8, cy := false }

/-- The empty program of a mode (R274). -/
def Program.empty : Mode → Program
  | .isa => .isa []
  | .micro => .micro [] []

/-- A new CPU with a new store (R274): `MODE` as given, no program, the reset state of R271, every cell 0 or false. -/
def State.powerOn (p : Params) (m : Mode) : State :=
  { params := p, program := Program.empty m, pc := 0, flags := Flags.clear, halted := false, pend := none,
    ir := 0#16, lastFault := none, vars := Vars.zero, scratch := Scratch.zero, mirror := Flags.clear,
    events := [], output := [] }

/-- The machine right after reset: power-on in ISA mode with the parameters of R8 (log entries 1 and 2). -/
def State.reset : State := State.powerOn Params.default .isa

end Sys2Proof.Machine
end

