-- ==== Sys2Proof/Machine/Flags.lean ====
section
/-!
DEFINITION. The flags: their accessors, every flag formula of spec/41_alu_microops.md (R156 to R163), and the
branch conditions (R78). The formulas read the scratch cells that the ALU has just written.
-/

namespace Sys2Proof.Machine

/-- The ALU functions (R156, R157, R162, R163). -/
inductive AluFn where
  | add
  | sub
  | and
  | or
  | xor
  | shl
  | shr
deriving DecidableEq, Repr

/-- One flag of the four. -/
def Flags.get (f : FlagName) (fl : Flags) : Bool :=
  match f with
  | .z => fl.z
  | .n => fl.n
  | .v => fl.v
  | .c => fl.c

/-- The four flags with one of them replaced. -/
def Flags.set (f : FlagName) (b : Bool) (fl : Flags) : Flags :=
  match f with
  | .z => { fl with z := b }
  | .n => { fl with n := b }
  | .v => { fl with v := b }
  | .c => { fl with c := b }

/-- R158: all eight `RES` bits are 0. -/
def flagZ (sc : Scratch) : Bool := sc.res == 0#8

/-- R159: `RES[7]`. -/
def flagN (sc : Scratch) : Bool := sc.res.getLsbD 7

/-- R160, and the V lines of R156, R157, R162, R163. -/
def flagV (f : AluFn) (sc : Scratch) : Bool :=
  match f with
  | .add => (sc.src1.getLsbD 7 == sc.src2.getLsbD 7) && (sc.res.getLsbD 7 != sc.src1.getLsbD 7)
  | .sub => (sc.src1.getLsbD 7 != sc.src2.getLsbD 7) && (sc.src1.getLsbD 7 != sc.res.getLsbD 7)
  | .and => false
  | .or => false
  | .xor => false
  | .shl => sc.src1.getLsbD 7 != sc.res.getLsbD 7
  | .shr => false

/-- R161, with the parameter `C_SUB` (R8). -/
def flagC (p : Params) (f : AluFn) (sc : Scratch) : Bool :=
  match f with
  | .add => sc.cy
  | .sub =>
    match p.cSub with
    | .borrow => sc.cy
    | .notBorrow => !sc.cy
  | .and => false
  | .or => false
  | .xor => false
  | .shl => sc.cy
  | .shr => sc.cy

/-- The value an ALU function gives a flag. -/
def flagValue (p : Params) (f : AluFn) (name : FlagName) (sc : Scratch) : Bool :=
  match name with
  | .z => flagZ sc
  | .n => flagN sc
  | .v => flagV f sc
  | .c => flagC p f sc

/-- AND, OR and XOR (R162). -/
def AluFn.isLogic : AluFn → Bool
  | .add => false
  | .sub => false
  | .and => true
  | .or => true
  | .xor => true
  | .shl => false
  | .shr => false

/-- The flags an ALU function writes, in the order Z, N, V, C of R165: all four, but for a logic function with
`LOGIC_VC = unchanged` (R162). -/
def flagsWritten (p : Params) (f : AluFn) : List FlagName :=
  if f.isLogic && p.logicVC == .unchanged then [.z, .n] else [.z, .n, .v, .c]

/-- When a condition holds (R78, R214 to R221): BCC and BCS test V. -/
def condHolds (c : Cond) (fl : Flags) : Bool :=
  match c with
  | .eq => fl.z
  | .ne => !fl.z
  | .pl => !fl.n
  | .mi => fl.n
  | .vc => !fl.v
  | .vs => fl.v
  | .cc => !fl.v
  | .cs => fl.v

end Sys2Proof.Machine
end

