-- ==== Sys2Proof/Machine/Ops.lean ====
section
/-!
DEFINITION. The named operations every rule uses: the value primitives of R10, the cells of the store and its port
(R11, R12, R53, R54), fetching items (R12, R132, R135), the phase events (R143), raising a fault (R13, R250),
halting (R131, R171), advancing and setting the PC (R140), and the reset state (R271).
-/

namespace Sys2Proof.Machine

/-! The value primitives of R10, on integers. -/

def u8 (n : Int) : Int := n % 256

def wrap8 (n : Int) : Int := (n + 128) % 256 - 128

def s8 (p : Int) : Int := if 128 ≤ p then p - 256 else p

def bitOf (n : Int) (i : Nat) : Int := (u8 n / 2 ^ i) % 2

def signOf (n : Int) : Int := bitOf n 7

/-- An integer reduced to the pattern a cell or an `arg8` field stores (R23, R73): its value is `wrap8 n`. -/
def byteOfInt (n : Int) : Byte := BitVec.ofInt 8 n

/-! The variables. -/

def Vars.get (v : Var) (vs : Vars) : Byte :=
  match v with
  | .q => vs.q
  | .w => vs.w
  | .e => vs.e
  | .r => vs.r
  | .a => vs.a
  | .s => vs.s
  | .d => vs.d
  | .z => vs.z
  | .x => vs.x

def Vars.set (v : Var) (b : Byte) (vs : Vars) : Vars :=
  match v with
  | .q => { vs with q := b }
  | .w => { vs with w := b }
  | .e => { vs with e := b }
  | .r => { vs with r := b }
  | .a => { vs with a := b }
  | .s => { vs with s := b }
  | .d => { vs with d := b }
  | .z => { vs with z := b }
  | .x => { vs with x := b }

/-- `x[i]`, `var(n)` (R11): every variable reads the value last written (R55). -/
def State.readVar (v : Var) (s : State) : Byte := s.vars.get v

/-- `x[i] <- v` (R11, R23): no variable is hard-wired (R20). -/
def State.writeVar (v : Var) (b : Byte) (s : State) : State := { s with vars := s.vars.set v b }

/-! The scratch cells. -/

/-- The three scratch registers of R39. -/
inductive ScratchReg where
  | src1
  | src2
  | res
deriving DecidableEq, Repr

def Scratch.get (r : ScratchReg) (sc : Scratch) : Byte :=
  match r with
  | .src1 => sc.src1
  | .src2 => sc.src2
  | .res => sc.res

def Scratch.set (r : ScratchReg) (b : Byte) (sc : Scratch) : Scratch :=
  match r with
  | .src1 => { sc with src1 := b }
  | .src2 => { sc with src2 := b }
  | .res => { sc with res := b }

/-- A byte with one bit replaced. -/
def setBit (p : Byte) (k : Fin 8) (b : Bool) : Byte :=
  if b then p ||| (1#8 <<< k.val) else p &&& ~~~(1#8 <<< k.val)

/-- Writing the cell `S[k]` of a scratch register (R39). -/
def Scratch.setCell (r : ScratchReg) (k : Fin 8) (b : Bool) (sc : Scratch) : Scratch :=
  sc.set r (setBit (sc.get r) k b)

/-- Reading the cell `S[k]` of a scratch register (R39). -/
def Scratch.getCell (r : ScratchReg) (k : Fin 8) (sc : Scratch) : Bool := (sc.get r).getLsbD k

/-! The flags. -/

/-- The CPU's own flag and, with the same value, its mirror cell (R30): the flag first, then `set_flag` (R165). -/
def State.writeFlag (f : FlagName) (b : Bool) (s : State) : State := { s with flags := s.flags.set f b }

def State.writeMirror (f : FlagName) (b : Bool) (s : State) : State := { s with mirror := s.mirror.set f b }

/-! The Memory Cell Store seen through its port (R53, R54). -/

/-- The 38 cell names (R53). -/
inductive CellName where
  | var (v : Var)
  | scratch (r : ScratchReg) (k : Fin 8)
  | cy
  | flag (f : FlagName)
deriving DecidableEq, Repr

/-- A bit as the integer `get` returns (R54). -/
def bitValue (b : Bool) : Int := if b then 1 else 0

/-- `get(name)` (R54): a signed byte for a variable, 0 or 1 for a bit or flag cell. It changes nothing (R55). -/
def State.cellGet (c : CellName) (s : State) : Int :=
  match c with
  | .var v => (s.readVar v).toInt
  | .scratch r k => bitValue (s.scratch.getCell r k)
  | .cy => bitValue s.scratch.cy
  | .flag f => bitValue (s.mirror.get f)

/-- `set(name, value)` (R54). A variable stores `wrap8(value)` (R23); a scratch cell is "written with `set(name, b)`
for `b` in 0, 1", and a flag cell likewise (`set_flag` folded into `set`). Any other value for a bit cell has no
meaning in the spec: no state (log entry 15). A write to a flag cell reaches the mirror only (R276). -/
def State.cellSet (c : CellName) (value : Int) (s : State) : Option State :=
  match c with
  | .var v => some (s.writeVar v (byteOfInt value))
  | .scratch r k =>
    if value = 0 ∨ value = 1 then some { s with scratch := s.scratch.setCell r k (value == 1) } else none
  | .cy => if value = 0 ∨ value = 1 then some { s with scratch := { s.scratch with cy := value == 1 } } else none
  | .flag f => if value = 0 ∨ value = 1 then some (s.writeMirror f (value == 1)) else none

/-- `get_flag(name)` (R54): the store's mirror cell. -/
def State.getFlag (f : FlagName) (s : State) : Bool := s.mirror.get f

/-- `clear_store()` (R273): the 38 cells zero or false, the CPU's registers untouched. -/
def State.clearStore (s : State) : State :=
  { s with vars := Vars.zero, scratch := Scratch.zero, mirror := Flags.clear }

/-! Items and fetch. -/

/-- The items of an ISA-mode program; a micro-mode program has none. -/
def State.isaItems (s : State) : List IsaItem :=
  match s.program with
  | .isa items => items
  | .micro _ _ => []

/-- The lines of a micro-mode program; an ISA-mode program has none. -/
def State.microLines (s : State) : List Text :=
  match s.program with
  | .isa _ => []
  | .micro lines _ => lines

/-- `MODE` (R36). -/
def State.mode (s : State) : Mode :=
  match s.program with
  | .isa _ => .isa
  | .micro _ _ => .micro

/-- `len(PROGRAM)` (R50). -/
def State.programLength (s : State) : Nat := s.isaItems.length + s.microLines.length

/-- The words from the PC to the end of the program (R132). -/
def State.wordsAtPc (s : State) : List Word := (s.isaItems.drop s.pc).map IsaItem.word

/-- The text of the item at the PC: a word's debug string, or a line (R35, R244). -/
def State.textAtPc (s : State) : Text :=
  match s.program with
  | .isa items =>
    match items[s.pc]? with
    | some item => item.text
    | none => []
  | .micro lines _ =>
    match lines[s.pc]? with
    | some line => line
    | none => []

/-- The index a label names, or none (R37). -/
def lookupLabel (name : Text) : List (Text × Nat) → Option Nat
  | [] => none
  | (n, k) :: rest => if n = name then some k else lookupLabel name rest

/-- `labels[L]` of micro mode; in ISA mode there is no label table (R37). -/
def State.labelIndex (name : Text) (s : State) : Option Nat :=
  match s.program with
  | .isa _ => none
  | .micro _ labels => lookupLabel name labels

/-! Phase events (R143) and console output (R173). -/

def State.emit (e : Event) (s : State) : State := { s with events := s.events ++ [e] }

def State.print (v : Var) (s : State) : State := { s with output := s.output ++ [(v, s.readVar v)] }

/-- Fetching the word at index `c`: `ir <- w` (R132), and its Decode splits `ir` (R136). -/
def State.fetchWord (c : Nat) (w : Word) (s : State) : State :=
  ({ s with ir := w }.emit (.fetchWord c w)).emit (.decodeWord (op4 w) (dst4 w) (arg8 w))

/-- Fetch and Decode of one instruction in ISA mode (R132, R136): nothing if the PC is past the end (R131); else the
decoded instruction and the state in which its words have passed through `ir`, one after the other. -/
def State.fetchInstr (s : State) : Option (Instr × State) :=
  match s.wordsAtPc with
  | [] => none
  | w :: ws =>
    match decode (w :: ws) with
    | .error _ => none
    | .ok (i, _) =>
      let s1 := s.fetchWord s.pc w
      match i.size, ws with
      | 2, w2 :: _ => some (i, s1.fetchWord (s.pc + 1) w2)
      | _, _ => some (i, s1)

/-! Ending a step. -/

/-- Outcome `Next` (R140): `pc <- c + 1`. -/
def State.advance (s : State) : State := { s with pc := s.pc + 1 }

/-- `raise Fault(kind, info)` (R13, R250): the one way a fault is taken. The PC stays, no cell is written. -/
def State.raise (kind : FaultKind) (info : FaultInfo) (s : State) : State :=
  { s with halted := true, lastFault := some { kind := kind, pc := s.pc, info := info }, pend := none }

/-- `Fault(MalformedInstruction, text)` (R244). -/
def State.raiseMalformed (s : State) : State := s.raise .malformedInstruction (.text s.textAtPc)

/-- `halt()` (R13): `last_fault` and the PC stay (R171). -/
def State.halt (s : State) : State := { s with halted := true }

/-- A fetch past the end (R131): a halt with no fault; `pend` is cleared. -/
def State.haltPastEnd (s : State) : State := { s with halted := true, pend := none }

/-- `pend <- None` (R134). -/
def State.clearPend (s : State) : State := { s with pend := none }

/-- The reset state of R271, over the program that is installed: the cells, the mode and the logs are kept. -/
def State.resetRegisters (s : State) : State :=
  { s with pc := 0, flags := Flags.clear, mirror := Flags.clear, halted := false, pend := none, ir := 0#16,
           lastFault := none }

/-- Going on from a next state, and stopping at anything else. -/
def onNext (r : Result) (f : State → Result) : Result :=
  match r with
  | .next s => f s
  | .fault e => .fault e
  | .refused e => .refused e

/-- The words `ws` placed in the item space from the PC on, in ISA mode, on a CPU that runs. Items before the PC are
kept, and NOP words fill the places up to the PC where there were none. -/
def State.placeWords (ws : List Word) (s : State) : State :=
  let old := s.isaItems
  let before := old.take s.pc ++ List.replicate (s.pc - old.length) { word := 0#16, text := [] }
  let placed := ws.map (fun w => ({ word := w, text := [] } : IsaItem))
  { s with program := .isa (before ++ placed ++ old.drop (s.pc + ws.length)), halted := false }

end Sys2Proof.Machine
end

