-- ==== Sys2Proof/Machine/Operands.lean ====
section
/-!
DEFINITION. The operand forms: register ids (R21, R74), signed immediates (R73), branch targets in both modes
(R104, R211, R212), and assignment operands (R92).
-/

namespace Sys2Proof.Machine

/-- The variable a register id names (R21); ids above 8 name none (R83). -/
def varOfId (id : Nat) : Option Var :=
  match id with
  | 0 => some .q
  | 1 => some .w
  | 2 => some .e
  | 3 => some .r
  | 4 => some .a
  | 5 => some .s
  | 6 => some .d
  | 7 => some .z
  | 8 => some .x
  | _ => none

/-- The register id of a variable (R21). -/
def idOfVar (v : Var) : Nat :=
  match v with
  | .q => 0
  | .w => 1
  | .e => 2
  | .r => 3
  | .a => 4
  | .s => 5
  | .d => 6
  | .z => 7
  | .x => 8

/-- The operand `rd` (R72): the register id in `dst4`. -/
def rdVar (rd : BitVec 4) : Option Var := varOfId rd.toNat

/-- The operand `rs` (R74): the whole of `arg8` is the register id. -/
def rsVar (rs : Byte) : Option Var := varOfId rs.toNat

/-- An instruction that names one register: the fault of R83 where the id names none, before any write. -/
def withRd (rd : BitVec 4) (s : State) (k : Var → Result) : Result :=
  match rdVar rd with
  | some v => k v
  | none => .next s.raiseMalformed

/-- An instruction that names two registers (R83). -/
def withRdRs (rd : BitVec 4) (rs : Byte) (s : State) (k : Var → Var → Result) : Result :=
  match rdVar rd, rsVar rs with
  | some v, some u => k v u
  | _, _ => .next s.raiseMalformed

/-- `t = c + 1 + sext_8(arg8)` (R212), with `c` the PC. -/
def branchTarget (disp : Byte) (s : State) : Int := (s.pc : Int) + 1 + disp.toInt

/-- A taken branch of ISA mode (R212): `pc <- t`, or the fault `BranchTargetNegative`. -/
def State.takeBranch (disp : Byte) (s : State) : State :=
  if branchTarget disp s < 0 then s.raise .branchTargetNegative (.target (branchTarget disp s))
  else { s with pc := (branchTarget disp s).toNat }

/-- A conditional branch of ISA mode (R210): one that is not taken never faults (R212). -/
def State.condBranch (c : Cond) (disp : Byte) (s : State) : State :=
  if condHolds c s.flags then s.takeBranch disp else s.advance

/-- A branch of micro mode (R211): an undeclared label faults whether or not the condition holds. -/
def State.labelBranch (taken : Bool) (name : Text) (s : State) : State :=
  match s.labelIndex name with
  | none => s.raise .unresolvedLabel (.label name)
  | some k => if taken then { s with pc := k } else s.advance

/-- `val(P)` (spec/47): the variable's value, or the immediate wrapped. -/
def operandValue (p : Operand) (s : State) : Byte :=
  match p with
  | .var v => s.readVar v
  | .imm n => byteOfInt n

/-- `MemRead(i, 1)` (R12): defined for `i` in 0..8. -/
def memRead (i : Nat) (s : State) : Option Int := (varOfId i).map (fun v => (s.readVar v).toInt)

/-- `MemWrite(i, 1, v)` (R12): defined for `i` in 0..8. -/
def memWrite (i : Nat) (value : Int) (s : State) : Option State :=
  (varOfId i).map (fun v => s.writeVar v (byteOfInt value))

end Sys2Proof.Machine
end

