-- ==== Sys2Proof/Machine/Alu.lean ====
section
/-!
DEFINITION. The bit-serial ALU of spec/41_alu_microops.md: the one-bit tables (R154, R155, R162), the micro-ops and
their order (R165), and the ALU functions as the runs of their micro-ops (R156, R157, R162, R163). Nothing here adds
or subtracts bytes: R166 is a theorem about these definitions.
-/

namespace Sys2Proof.Machine

/-- The full adder's table (R154): (sum, carry out). -/
def fullAdder (a b cin : Bool) : Bool × Bool :=
  match a, b, cin with
  | false, false, false => (false, false)
  | false, false, true => (true, false)
  | false, true, false => (true, false)
  | false, true, true => (false, true)
  | true, false, false => (true, false)
  | true, false, true => (false, true)
  | true, true, false => (false, true)
  | true, true, true => (true, true)

/-- The full subtractor's table (R155): (difference, borrow out). -/
def fullSubtractor (a b bin : Bool) : Bool × Bool :=
  match a, b, bin with
  | false, false, false => (false, false)
  | false, false, true => (true, true)
  | false, true, false => (true, true)
  | false, true, true => (false, true)
  | true, false, false => (true, false)
  | true, false, true => (false, false)
  | true, true, false => (false, false)
  | true, true, true => (true, true)

/-- The table of AND (R162). -/
def andTable (a b : Bool) : Bool :=
  match a, b with
  | false, false => false
  | false, true => false
  | true, false => false
  | true, true => true

/-- The table of OR (R162). -/
def orTable (a b : Bool) : Bool :=
  match a, b with
  | false, false => false
  | false, true => true
  | true, false => true
  | true, true => true

/-- The table of XOR (R162). -/
def xorTable (a b : Bool) : Bool :=
  match a, b with
  | false, false => false
  | false, true => true
  | true, false => true
  | true, true => false

/-- The value of `RES[k]`, computed from the cells as they stand (R156, R157, R162, R163). -/
def resultBit (f : AluFn) (k : Fin 8) (sc : Scratch) : Bool :=
  match f with
  | .add => (fullAdder (sc.getCell .src1 k) (sc.getCell .src2 k) sc.cy).1
  | .sub => (fullSubtractor (sc.getCell .src1 k) (sc.getCell .src2 k) sc.cy).1
  | .and => andTable (sc.getCell .src1 k) (sc.getCell .src2 k)
  | .or => orTable (sc.getCell .src1 k) (sc.getCell .src2 k)
  | .xor => xorTable (sc.getCell .src1 k) (sc.getCell .src2 k)
  | .shl => if k.val = 0 then false else sc.src1.getLsbD (k.val - 1)
  | .shr => if k.val = 7 then sc.src1.getLsbD 7 else sc.src1.getLsbD (k.val + 1)

/-- The value `CY` takes after `RES[k]` is written: the carry or borrow of the chain. Only add and subtract have a
chain (R165 step 4). -/
def chainBit (f : AluFn) (k : Fin 8) (sc : Scratch) : Bool :=
  match f with
  | .add => (fullAdder (sc.getCell .src1 k) (sc.getCell .src2 k) sc.cy).2
  | .sub => (fullSubtractor (sc.getCell .src1 k) (sc.getCell .src2 k) sc.cy).2
  | .and => sc.cy
  | .or => sc.cy
  | .xor => sc.cy
  | .shl => sc.cy
  | .shr => sc.cy

/-- `CY` before the bits (R165 step 3): 0 for add and subtract, the bit shifted out for a shift (R163). -/
def initialCy (f : AluFn) (sc : Scratch) : Bool :=
  match f with
  | .add => false
  | .sub => false
  | .and => sc.cy
  | .or => sc.cy
  | .xor => sc.cy
  | .shl => sc.src1.getLsbD 7
  | .shr => sc.src1.getLsbD 0

/-- One write of one cell or flag (R165). -/
inductive MicroOp where
  /-- `S[k] <- bit(v, k)` (R152). -/
  | unpackBit (r : ScratchReg) (v : Byte) (k : Fin 8)
  /-- Step 3: `CY` gets its first value. -/
  | initCy (f : AluFn)
  /-- Step 4: `RES[k]`. -/
  | writeRes (f : AluFn) (k : Fin 8)
  /-- Step 4: `CY` after `RES[k]`. -/
  | writeCy (f : AluFn) (k : Fin 8)
  /-- Step 5: one CPU flag. -/
  | writeFlag (f : AluFn) (name : FlagName)
  /-- Step 5: its mirror cell (R30). -/
  | writeMirror (name : FlagName)
  /-- Step 6: `var(V) <- pack(S)` (R153). -/
  | packInto (v : Var) (r : ScratchReg)
deriving DecidableEq, Repr

/-- What one micro-op does. -/
def State.microOp (s : State) (m : MicroOp) : State :=
  match m with
  | .unpackBit r v k => { s with scratch := s.scratch.setCell r k (v.getLsbD k) }
  | .initCy f => { s with scratch := { s.scratch with cy := initialCy f s.scratch } }
  | .writeRes f k => { s with scratch := s.scratch.setCell .res k (resultBit f k s.scratch) }
  | .writeCy f k => { s with scratch := { s.scratch with cy := chainBit f k s.scratch } }
  | .writeFlag f name => s.writeFlag name (flagValue s.params f name s.scratch)
  | .writeMirror name => s.writeMirror name (s.flags.get name)
  | .packInto v r => s.writeVar v (s.scratch.get r)

/-- The bit positions in the order every chain visits them, "LSB→MSB" (R165). -/
def bitOrder : List (Fin 8) := [0, 1, 2, 3, 4, 5, 6, 7]

/-- `unpack(S, v)` (R152). -/
def unpackOps (r : ScratchReg) (v : Byte) : List MicroOp := bitOrder.map (.unpackBit r v)

/-- The ALU functions that read two operands. -/
def AluFn.isBinary : AluFn → Bool
  | .add => true
  | .sub => true
  | .and => true
  | .or => true
  | .xor => true
  | .shl => false
  | .shr => false

/-- Steps 1 to 3 of R165: the operands and the first `CY`. A logic function does not touch `CY` (R162). -/
def operandOps (f : AluFn) (a b : Byte) : List MicroOp :=
  unpackOps .src1 a ++ (if f.isBinary then unpackOps .src2 b else []) ++ (if f.isLogic then [] else [.initCy f])

/-- Step 4 of R165. -/
def resultOps (f : AluFn) : List MicroOp :=
  match f with
  | .add => bitOrder.flatMap (fun k => [.writeRes f k, .writeCy f k])
  | .sub => bitOrder.flatMap (fun k => [.writeRes f k, .writeCy f k])
  | .and => bitOrder.map (.writeRes f)
  | .or => bitOrder.map (.writeRes f)
  | .xor => bitOrder.map (.writeRes f)
  | .shl => bitOrder.map (.writeRes f)
  | .shr => bitOrder.map (.writeRes f)

/-- Step 5 of R165: the flags in the order Z, N, V, C, each followed by its mirror. -/
def flagOps (p : Params) (f : AluFn) : List MicroOp :=
  (flagsWritten p f).flatMap (fun name => [.writeFlag f name, .writeMirror name])

/-- The micro-ops of an ALU function, without a destination (R165 steps 1 to 5). `b` is not read by a shift. -/
def aluOps (p : Params) (f : AluFn) (a b : Byte) : List MicroOp :=
  operandOps f a b ++ resultOps f ++ flagOps p f

/-- Running micro-ops in order. -/
def State.runMicro (ops : List MicroOp) (s : State) : State := ops.foldl State.microOp s

/-- The states an observer finer than one instruction sees, the first and the last included (R41, R56, R165). -/
def State.microStates (ops : List MicroOp) (s : State) : List State := ops.scanl State.microOp s

/-- An ALU function: its result stands in `RES` (R156, R157, R162, R163). -/
def State.alu (f : AluFn) (a b : Byte) (s : State) : State := s.runMicro (aluOps s.params f a b)

/-- An ALU function whose result goes to a variable (R165 step 6): `x[rd] <- ALU_f(a, b)`. -/
def State.aluTo (f : AluFn) (a b : Byte) (dst : Var) (s : State) : State :=
  s.runMicro (aluOps s.params f a b ++ [.packInto dst .res])

/-- `COPY` (R231): unpack into `SRC1`, pack from it. -/
def State.copyThroughSrc1 (v : Byte) (dst : Var) (s : State) : State :=
  s.runMicro (unpackOps .src1 v ++ [.packInto dst .src1])

end Sys2Proof.Machine
end

