-- ==== Sys2Proof/Machine/Arith.lean ====
section
/-!
DEFINITION. ADD, ADDI, SUB, SUBI, NEG (spec/43_arithmetic.md).
-/

namespace Sys2Proof.Machine

/-- R180. -/
def execAdd (rd : BitVec 4) (rs : Byte) (s : State) : Result :=
  withRdRs rd rs s fun v u => .next (s.aluTo .add (s.readVar v) (s.readVar u) v).advance

/-- R181. -/
def execAddi (rd : BitVec 4) (imm : Byte) (s : State) : Result :=
  withRd rd s fun v => .next (s.aluTo .add (s.readVar v) imm v).advance

/-- R182. -/
def execSub (rd : BitVec 4) (rs : Byte) (s : State) : Result :=
  withRdRs rd rs s fun v u => .next (s.aluTo .sub (s.readVar v) (s.readVar u) v).advance

/-- R183. -/
def execSubi (rd : BitVec 4) (imm : Byte) (s : State) : Result :=
  withRd rd s fun v => .next (s.aluTo .sub (s.readVar v) imm v).advance

/-- R184: `0 - operand` through the subtractor. -/
def execNeg (rd : BitVec 4) (s : State) : Result :=
  withRd rd s fun v => .next (s.aluTo .sub 0#8 (s.readVar v) v).advance

end Sys2Proof.Machine
end

