-- ==== Sys2Proof/Machine/Branch.lean ====
section
/-!
DEFINITION. JMP and the conditional branches in ISA mode (spec/46_branch.md). None writes a flag, a variable or a
scratch cell (R210).
-/

namespace Sys2Proof.Machine

/-- R213. -/
def execJmp (disp : Byte) (s : State) : Result := .next (s.takeBranch disp)

/-- R214. -/
def execBeq (disp : Byte) (s : State) : Result := .next (s.condBranch .eq disp)

/-- R215. -/
def execBne (disp : Byte) (s : State) : Result := .next (s.condBranch .ne disp)

/-- R216. -/
def execBpl (disp : Byte) (s : State) : Result := .next (s.condBranch .pl disp)

/-- R217. -/
def execBmi (disp : Byte) (s : State) : Result := .next (s.condBranch .mi disp)

/-- R218. -/
def execBvc (disp : Byte) (s : State) : Result := .next (s.condBranch .vc disp)

/-- R219. -/
def execBvs (disp : Byte) (s : State) : Result := .next (s.condBranch .vs disp)

/-- R220: it tests V, not C. -/
def execBcc (disp : Byte) (s : State) : Result := .next (s.condBranch .cc disp)

/-- R221: it tests V, not C. -/
def execBcs (disp : Byte) (s : State) : Result := .next (s.condBranch .cs disp)

end Sys2Proof.Machine
end

