-- ==== Sys2Proof/Machine/Compare.lean ====
section
/-!
DEFINITION. EXT, CMP, CMPI (spec/45_compare.md).
-/

namespace Sys2Proof.Machine

/-- What an EXT prefix does (R133, R200): latch the immediate and go past the word. -/
def State.latch (imm : Byte) (s : State) : State := { s with pend := some imm, pc := s.pc + 1 }

/-- `discard ALU_SUB(a, b)` (R202): all four flags and the scratch cells, no variable; the pending immediate is
"consumed exactly once" (R33). -/
def State.compare (a b : Byte) (s : State) : State := (s.alu .sub a b).clearPend.advance

/-- The CMP word (R202): against the pending immediate, whose `arg8` is then ignored and unchecked (R79, R83), or against
`x[arg8]`. -/
def compareWord (rd : BitVec 4) (rs : Byte) (s : State) : Result :=
  match s.pend with
  | some imm => withRd rd s fun v => .next (s.compare (s.readVar v) imm)
  | none => withRdRs rd rs s fun v u => .next (s.compare (s.readVar v) (s.readVar u))

/-- R200: the part of the step that EXT is; the step then goes on to the next word (R133). -/
def execExt (imm : Byte) (s : State) : Result := .next (s.latch imm)

/-- R202. -/
def execCmp (rd : BitVec 4) (rs : Byte) (s : State) : Result := compareWord rd rs s

/-- R203: "rule R200 then rule R202 with `pend = Some(sext_8(imm8))`", from the EXT word's index. -/
def execCmpi (rd : BitVec 4) (imm : Byte) (s : State) : Result := compareWord rd 0#8 (s.latch imm)

end Sys2Proof.Machine
end

