-- ==== Sys2Proof/Machine/LogicShift.lean ====
section
/-!
DEFINITION. AND, OR, XOR, SHL, SHR (spec/44_logic_shift.md). A shift has no second operand.
-/

namespace Sys2Proof.Machine

/-- R190. -/
def execAnd (rd : BitVec 4) (rs : Byte) (s : State) : Result :=
  withRdRs rd rs s fun v u => .next (s.aluTo .and (s.readVar v) (s.readVar u) v).advance

/-- R191. -/
def execOr (rd : BitVec 4) (rs : Byte) (s : State) : Result :=
  withRdRs rd rs s fun v u => .next (s.aluTo .or (s.readVar v) (s.readVar u) v).advance

/-- R192. -/
def execXor (rd : BitVec 4) (rs : Byte) (s : State) : Result :=
  withRdRs rd rs s fun v u => .next (s.aluTo .xor (s.readVar v) (s.readVar u) v).advance

/-- R193. -/
def execShl (rd : BitVec 4) (s : State) : Result :=
  withRd rd s fun v => .next (s.aluTo .shl (s.readVar v) 0#8 v).advance

/-- R194. -/
def execShr (rd : BitVec 4) (s : State) : Result :=
  withRd rd s fun v => .next (s.aluTo .shr (s.readVar v) 0#8 v).advance

end Sys2Proof.Machine
end

