-- ==== Sys2Proof/Machine/Misc.lean ====
section
/-!
DEFINITION. NOP, HALT, MOV, MOVI (spec/42_misc_and_move.md) and the reserved branch words (R82).
-/

namespace Sys2Proof.Machine

/-- R170. -/
def execNop (s : State) : Result := .next s.advance

/-- R171. -/
def execHalt (s : State) : Result := .next s.halt

/-- R174: a direct copy, the scratch cells are not used. -/
def execMov (rd : BitVec 4) (rs : Byte) (s : State) : Result :=
  withRdRs rd rs s fun v u => .next (s.writeVar v (s.readVar u)).advance

/-- R175. -/
def execMovi (rd : BitVec 4) (imm : Byte) (s : State) : Result :=
  withRd rd s fun v => .next (s.writeVar v imm).advance

/-- R82: executing a reserved condition raises `Fault(MalformedInstruction)` (R244). -/
def execReserved (_low : BitVec 3) (_disp : Byte) (s : State) : Result := .next s.raiseMalformed

end Sys2Proof.Machine
end

