-- ==== Sys2Proof/Machine/Dispatch.lean ====
section
/-!
DEFINITION. The Execute phase of ISA mode (R138): the meaning of every row of spec/opcode_table.json, each with the
PC advance of its outcome (R140).
-/

namespace Sys2Proof.Machine

def exec (i : Instr) (s : State) : Host.Outcome State Fault Refusal :=
  match i with
  | .ext imm => Sys2Proof.Machine.execExt imm s
  | .nop => Sys2Proof.Machine.execNop s
  | .halt => Sys2Proof.Machine.execHalt s
  | .mov rd rs => Sys2Proof.Machine.execMov rd rs s
  | .movi rd imm => Sys2Proof.Machine.execMovi rd imm s
  | .add rd rs => Sys2Proof.Machine.execAdd rd rs s
  | .addi rd imm => Sys2Proof.Machine.execAddi rd imm s
  | .sub rd rs => Sys2Proof.Machine.execSub rd rs s
  | .subi rd imm => Sys2Proof.Machine.execSubi rd imm s
  | .and rd rs => Sys2Proof.Machine.execAnd rd rs s
  | .or rd rs => Sys2Proof.Machine.execOr rd rs s
  | .xor rd rs => Sys2Proof.Machine.execXor rd rs s
  | .shl rd => Sys2Proof.Machine.execShl rd s
  | .shr rd => Sys2Proof.Machine.execShr rd s
  | .neg rd => Sys2Proof.Machine.execNeg rd s
  | .cmp rd rs => Sys2Proof.Machine.execCmp rd rs s
  | .cmpi rd imm => Sys2Proof.Machine.execCmpi rd imm s
  | .jmp disp => Sys2Proof.Machine.execJmp disp s
  | .beq disp => Sys2Proof.Machine.execBeq disp s
  | .bne disp => Sys2Proof.Machine.execBne disp s
  | .bpl disp => Sys2Proof.Machine.execBpl disp s
  | .bmi disp => Sys2Proof.Machine.execBmi disp s
  | .bvc disp => Sys2Proof.Machine.execBvc disp s
  | .bvs disp => Sys2Proof.Machine.execBvs disp s
  | .bcc disp => Sys2Proof.Machine.execBcc disp s
  | .bcs disp => Sys2Proof.Machine.execBcs disp s
  | .reserved low disp => Sys2Proof.Machine.execReserved low disp s

end Sys2Proof.Machine
end

