-- ==== Sys2Proof/Machine/MicroMode.lean ====
section
/-!
DEFINITION. What each line form does when micro mode executes it (spec/42 to spec/47, R142). The ALU is the one ISA mode
uses (R138); targets are absolute (R211) and CMPI is one item (R203).
-/

namespace Sys2Proof.Machine

/-- R170, and every unparseable line (R93, R247). -/
def lineNop (s : State) : Result := .next s.advance

/-- R171. -/
def lineHalt (s : State) : Result := .next s.halt

/-- R172: a model that met a label line would pass it; the loader strips them. -/
def lineLabel (s : State) : Result := .next s.advance

/-- R173. -/
def linePrint (v : Var) (s : State) : Result := .next (s.print v).advance

/-- R174. -/
def lineMov (v1 v2 : Var) (s : State) : Result := .next (s.writeVar v1 (s.readVar v2)).advance

/-- R175, and `X = literal` (R230). -/
def lineMovi (v : Var) (n : Int) (s : State) : Result := .next (s.writeVar v (byteOfInt n)).advance

/-- An ALU line with a destination (R180 to R184, R190 to R194). -/
def lineAlu (f : AluFn) (a b : Byte) (v : Var) (s : State) : Result := .next (s.aluTo f a b v).advance

/-- R202, R203 in micro mode. -/
def lineCompare (a b : Byte) (s : State) : Result := .next (s.alu .sub a b).advance

/-- R231: a copy through `SRC1`. -/
def lineCopy (dst src : Var) (s : State) : Result := .next (s.copyThroughSrc1 (s.readVar src) dst).advance

/-- `X = P` (R230, R231). -/
def lineAssign (dst : Var) (p : Operand) (s : State) : Result :=
  match p with
  | .imm n => lineMovi dst n s
  | .var src => lineCopy dst src s

/-- The operands of R232 in the order the adder gets them: `X = imm + X` runs as `ADDI X,imm`. -/
def addOrder (dst : Var) (a b : Operand) : Operand × Operand :=
  match a, b with
  | .imm n, .var src => if src = dst then (.var src, .imm n) else (.imm n, .var src)
  | a, b => (a, b)

/-- R232. -/
def lineAssignAdd (dst : Var) (a b : Operand) (s : State) : Result :=
  lineAlu .add (operandValue (addOrder dst a b).1 s) (operandValue (addOrder dst a b).2 s) dst s

/-- R233. -/
def lineAssignSub (dst : Var) (a b : Operand) (s : State) : Result :=
  lineAlu .sub (operandValue a s) (operandValue b s) dst s

/-- The Execute phase of micro mode (R138, R142). -/
def execLine (op : LineOp) (s : State) : Result :=
  match op with
  | .nop => lineNop s
  | .halt => lineHalt s
  | .label _ => lineLabel s
  | .print v => linePrint v s
  | .mov v1 v2 => lineMov v1 v2 s
  | .movi v n => lineMovi v n s
  | .add v1 v2 => lineAlu .add (s.readVar v1) (s.readVar v2) v1 s
  | .addi v n => lineAlu .add (s.readVar v) (byteOfInt n) v s
  | .sub v1 v2 => lineAlu .sub (s.readVar v1) (s.readVar v2) v1 s
  | .subi v n => lineAlu .sub (s.readVar v) (byteOfInt n) v s
  | .neg v => lineAlu .sub 0#8 (s.readVar v) v s
  | .and v1 v2 => lineAlu .and (s.readVar v1) (s.readVar v2) v1 s
  | .or v1 v2 => lineAlu .or (s.readVar v1) (s.readVar v2) v1 s
  | .xor v1 v2 => lineAlu .xor (s.readVar v1) (s.readVar v2) v1 s
  | .shl v => lineAlu .shl (s.readVar v) 0#8 v s
  | .shr v => lineAlu .shr (s.readVar v) 0#8 v s
  | .cmp v1 v2 => lineCompare (s.readVar v1) (s.readVar v2) s
  | .cmpi v n => lineCompare (s.readVar v) (byteOfInt n) s
  | .jmp name => .next (s.labelBranch true name)
  | .branch c name => .next (s.labelBranch (condHolds c s.flags) name)
  | .assign dst p => lineAssign dst p s
  | .assignAdd dst a b => lineAssignAdd dst a b s
  | .assignSub dst a b => lineAssignSub dst a b s
  | .unparseable _ => lineNop s

end Sys2Proof.Machine
end

