-- ==== Sys2Proof/Machine/Text.lean ====
section
/-!
DEFINITION. The lexical rules of source lines (R87 to R89): white space, names, immediates, variables. Every reader
takes the text from where it stands and answers what it read with the text after it.
-/

namespace Sys2Proof.Machine

/-- White space (R87). The spec does not list the characters (log entry 9). -/
def isSpace (ch : Char) : Bool := ch == ' ' || ch == '\t' || ch == '\r' || ch == '\n'

def isDecimal (ch : Char) : Bool := '0'.val ≤ ch.val && ch.val ≤ '9'.val

def isUpperLetter (ch : Char) : Bool := 'A'.val ≤ ch.val && ch.val ≤ 'Z'.val

def isLowerLetter (ch : Char) : Bool := 'a'.val ≤ ch.val && ch.val ≤ 'z'.val

/-- The first character of a name, `[A-Za-z_]` (R89). -/
def isNameStart (ch : Char) : Bool := isUpperLetter ch || isLowerLetter ch || ch == '_'

/-- The further characters of a name, `[A-Za-z0-9_]` (R89). -/
def isNameChar (ch : Char) : Bool := isNameStart ch || isDecimal ch

/-- A letter as the capital of it, any other character as itself. -/
def upperChar (ch : Char) : Char := if isLowerLetter ch then Char.ofNat (ch.toNat - 32) else ch

/-- Mnemonics and keywords are compared without regard to case (R87). -/
def upperText (t : Text) : Text := t.map upperChar

/-- The value of a hexadecimal digit. -/
def hexValue (ch : Char) : Option Nat :=
  if isDecimal ch then some (ch.toNat - '0'.toNat)
  else if 'a'.val ≤ ch.val && ch.val ≤ 'f'.val then some (ch.toNat - 'a'.toNat + 10)
  else if 'A'.val ≤ ch.val && ch.val ≤ 'F'.val then some (ch.toNat - 'A'.toNat + 10)
  else none

def isHex (ch : Char) : Bool := (hexValue ch).isSome

def skipSpace (t : Text) : Text := t.dropWhile isSpace

/-- A line without its leading and trailing white space (R87). -/
def trim (t : Text) : Text := ((skipSpace t).reverse.dropWhile isSpace).reverse

/-- The number that digits of a base write. -/
def digitsValue (base : Nat) (digits : Text) : Nat :=
  digits.foldl (fun n ch => base * n + (hexValue ch).getD 0) 0

/-- A name, as long as it goes (R89). -/
def readName (t : Text) : Option (Text × Text) :=
  match t with
  | [] => none
  | ch :: rest =>
    if isNameStart ch then some (ch :: rest.takeWhile isNameChar, rest.dropWhile isNameChar) else none

/-- `0x` and hexadecimal digits, or decimal digits (R88). -/
def readMagnitude (t : Text) : Option (Nat × Text) :=
  let decimal : Option (Nat × Text) :=
    if (t.takeWhile isDecimal).isEmpty then none
    else some (digitsValue 10 (t.takeWhile isDecimal), t.dropWhile isDecimal)
  match t with
  | '0' :: 'x' :: rest =>
    if (rest.takeWhile isHex).isEmpty then decimal
    else some (digitsValue 16 (rest.takeWhile isHex), rest.dropWhile isHex)
  | _ => decimal

/-- An optional character at the front. -/
def skipChar (ch : Char) (t : Text) : Bool × Text :=
  match t with
  | [] => (false, [])
  | c :: rest => if c = ch then (true, rest) else (false, c :: rest)

/-- An immediate: `#`? `-`? magnitude (R88), with no white space inside (log entry 9). -/
def readImm (t : Text) : Option (Int × Text) :=
  let (_, t1) := skipChar '#' t
  let (negative, t2) := skipChar '-' t1
  match readMagnitude t2 with
  | some (n, rest) => some (if negative then -(n : Int) else n, rest)
  | none => none

/-- The variable a letter names, in either case (R87). -/
def varOfChar (ch : Char) : Option Var :=
  match upperChar ch with
  | 'Q' => some .q
  | 'W' => some .w
  | 'E' => some .e
  | 'R' => some .r
  | 'A' => some .a
  | 'S' => some .s
  | 'D' => some .d
  | 'Z' => some .z
  | 'X' => some .x
  | _ => none

/-- A variable: a name of one letter that is one of the nine (R87). -/
def readVarName (t : Text) : Option (Var × Text) :=
  match readName t with
  | some ([ch], rest) => (varOfChar ch).map (fun v => (v, rest))
  | _ => none

/-- An operand of an assignment or an IF (R92, R95): a variable or an immediate. -/
def readOperand (t : Text) : Option (Operand × Text) :=
  match readVarName t with
  | some (v, rest) => some (.var v, rest)
  | none =>
    match readImm t with
    | some (n, rest) => some (.imm n, rest)
    | none => none

/-- The text is at its end, but for white space. -/
def atEnd (t : Text) : Bool := (skipSpace t).isEmpty

/-- A given character, with optional white space on both sides (R87). -/
def readSeparator (ch : Char) (t : Text) : Option Text :=
  match skipChar ch (skipSpace t) with
  | (true, rest) => some (skipSpace rest)
  | (false, _) => none

end Sys2Proof.Machine
end

