-- ==== Sys2Proof/Machine/Parser.lean ====
section
/-!
DEFINITION. The Line Parser (R90 to R93): one line of text to the operation it stands for. It is the Decode phase of
micro mode (R137) and the front of the assembler (R111).
-/

namespace Sys2Proof.Machine

/-! Operand lists of primitive lines (R91). -/

def argsNone (t : Text) : Option Unit := if atEnd t then some () else none

def argsVar (t : Text) : Option Var :=
  match readVarName (skipSpace t) with
  | some (v, rest) => if atEnd rest then some v else none
  | none => none

def argsVarVar (t : Text) : Option (Var × Var) :=
  match readVarName (skipSpace t) with
  | some (v, rest) =>
    match readSeparator ',' rest with
    | some rest2 =>
      match readVarName rest2 with
      | some (u, rest3) => if atEnd rest3 then some (v, u) else none
      | none => none
    | none => none
  | none => none

def argsVarImm (t : Text) : Option (Var × Int) :=
  match readVarName (skipSpace t) with
  | some (v, rest) =>
    match readSeparator ',' rest with
    | some rest2 =>
      match readImm rest2 with
      | some (n, rest3) => if atEnd rest3 then some (v, n) else none
      | none => none
    | none => none
  | none => none

def argsLabel (t : Text) : Option Text :=
  match readName (skipSpace t) with
  | some (name, rest) => if atEnd rest then some name else none
  | none => none

/-- The condition of a branch mnemonic (R78), given in capitals. -/
def condOfMnemonic (m : Text) : Option Cond :=
  if m = "BEQ".toList then some .eq
  else if m = "BNE".toList then some .ne
  else if m = "BPL".toList then some .pl
  else if m = "BMI".toList then some .mi
  else if m = "BVC".toList then some .vc
  else if m = "BVS".toList then some .vs
  else if m = "BCC".toList then some .cc
  else if m = "BCS".toList then some .cs
  else none

/-- The two-variable mnemonics (R91). -/
def parseVarVar (m : Text) (v u : Var) : Option LineOp :=
  if m = "MOV".toList then some (.mov v u)
  else if m = "ADD".toList then some (.add v u)
  else if m = "SUB".toList then some (.sub v u)
  else if m = "AND".toList then some (.and v u)
  else if m = "OR".toList then some (.or v u)
  else if m = "XOR".toList then some (.xor v u)
  else if m = "CMP".toList then some (.cmp v u)
  else none

/-- The mnemonics of a variable and an immediate (R91). -/
def parseVarImm (m : Text) (v : Var) (n : Int) : Option LineOp :=
  if m = "MOVI".toList then some (.movi v n)
  else if m = "ADDI".toList then some (.addi v n)
  else if m = "SUBI".toList then some (.subi v n)
  else if m = "CMPI".toList then some (.cmpi v n)
  else none

/-- The one-variable mnemonics (R91). -/
def parseVar (m : Text) (v : Var) : Option LineOp :=
  if m = "PRINT".toList then some (.print v)
  else if m = "NEG".toList then some (.neg v)
  else if m = "SHL".toList then some (.shl v)
  else if m = "SHR".toList then some (.shr v)
  else none

/-- The mnemonics without an operand (R91). -/
def parseBare (m : Text) : Option LineOp :=
  if m = "NOP".toList then some .nop
  else if m = "HALT".toList then some .halt
  else none

/-- The mnemonics of a label (R91). -/
def parseJump (m : Text) (name : Text) : Option LineOp :=
  if m = "JMP".toList then some (.jmp name) else (condOfMnemonic m).map (fun c => .branch c name)

/-- A primitive line (R91): it matches only if the mnemonic, the operand count and every operand kind match. -/
def parsePrimitive (t : Text) : Option LineOp :=
  match readName t with
  | none => none
  | some (name, rest) =>
    let m := upperText name
    ((argsNone rest).bind (fun _ => parseBare m)).or
      (((argsVar rest).bind (parseVar m)).or
        (((argsVarVar rest).bind (fun p => parseVarVar m p.1 p.2)).or
          (((argsVarImm rest).bind (fun p => parseVarImm m p.1 p.2)).or
            ((argsLabel rest).bind (parseJump m)))))

/-- The right side of an assignment line (R92): the operator is the first `+` or `-` after a complete operand. -/
def parseRightSide (dst : Var) (t : Text) : Option LineOp :=
  match readOperand t with
  | none => none
  | some (a, rest) =>
    match skipSpace rest with
    | [] => some (.assign dst a)
    | '+' :: rest2 =>
      match readOperand (skipSpace rest2) with
      | some (b, rest3) => if atEnd rest3 then some (.assignAdd dst a b) else none
      | none => none
    | '-' :: rest2 =>
      match readOperand (skipSpace rest2) with
      | some (b, rest3) => if atEnd rest3 then some (.assignSub dst a b) else none
      | none => none
    | _ => none

/-- An assignment line (R92). -/
def parseAssignment (t : Text) : Option LineOp :=
  match readVarName t with
  | none => none
  | some (dst, rest) =>
    match readSeparator '=' rest with
    | some rest2 => parseRightSide dst rest2
    | none => none

/-- A label declaration at the front of a line (R89): the name and what follows the colon. -/
def splitLabel (t : Text) : Option (Text × Text) :=
  match readName t with
  | some (name, ':' :: rest) => some (name, skipSpace rest)
  | _ => none

/-- A line `name:` (R89). -/
def parseLabel (t : Text) : Option LineOp :=
  match splitLabel t with
  | some (name, []) => some (.label name)
  | _ => none

/-- The Line Parser (R93, R137). -/
def parseLine (line : Text) : LineOp :=
  let t := trim line
  (((parseLabel t).or (parsePrimitive t)).or (parseAssignment t)).getD (.unparseable line)

/-- A line that matched no form (R93). -/
def LineOp.isUnparseable : LineOp → Bool
  | .unparseable _ => true
  | _ => false

end Sys2Proof.Machine
end

