-- ==== Sys2Proof/WellFormed.lean ====
section
/-!
DEFINITION. Which instructions are well formed: every register field names a register and the branch condition is
not reserved. It is the negation of `malformed` in R141 (R82, R83).
-/

namespace Sys2Proof

/-- A `dst4` field names a register exactly when it is in 0..8 (R21, R83). -/
def validRd (rd : BitVec 4) : Bool := decide (rd.toNat ≤ 8)

/-- An `arg8` field names a register exactly when it is in 0..8 (R74, R83). -/
def validRs (rs : Byte) : Bool := decide (rs.toNat ≤ 8)

/-- Well-formed instructions. CMPI's second word has its `arg8` ignored and unchecked (R80, R203). -/
def Instr.wellFormed : Instr → Bool
  | .ext _ => true
  | .nop => true
  | .halt => true
  | .mov rd rs => validRd rd && validRs rs
  | .movi rd _ => validRd rd
  | .add rd rs => validRd rd && validRs rs
  | .addi rd _ => validRd rd
  | .sub rd rs => validRd rd && validRs rs
  | .subi rd _ => validRd rd
  | .and rd rs => validRd rd && validRs rs
  | .or rd rs => validRd rd && validRs rs
  | .xor rd rs => validRd rd && validRs rs
  | .shl rd => validRd rd
  | .shr rd => validRd rd
  | .neg rd => validRd rd
  | .cmp rd rs => validRd rd && validRs rs
  | .cmpi rd _ => validRd rd
  | .jmp _ => true
  | .beq _ => true
  | .bne _ => true
  | .bpl _ => true
  | .bmi _ => true
  | .bvc _ => true
  | .bvs _ => true
  | .bcc _ => true
  | .bcs _ => true
  | .reserved _ _ => false

end Sys2Proof
end

