-- ==== Sys2Proof/Machine/Cycle.lean ====
section
/-!
DEFINITION. The step cycle of both modes (spec/40_step_cycle.md, R130 to R146): fetch, EXT prefixes, decode, execute,
writeback, with the phase events of R143.
-/

namespace Sys2Proof.Machine

/-- EXT is the only prefix (R85, R133). -/
def isPrefixWord (i : Instr) : Bool :=
  match i with
  | .ext _ => true
  | _ => false

/-- The Execute event, which a decode fault does not report (R143). -/
def beginExecute (i : Instr) (s : State) : State := if i.wellFormed then s.emit .execute else s

/-- The end of a step: `pend <- None` (R134), and the Writeback event, which a decode fault does not report (R139, R143). -/
def finishExecute (i : Instr) (s : State) : State :=
  if i.wellFormed then s.clearPend.emit .writeback else s.clearPend

/-- Execute and Writeback of one instruction in ISA mode (R138, R139, R141). -/
def executePhase (i : Instr) (s : State) : Result :=
  onNext (exec i (beginExecute i s)) (fun t => .next (finishExecute i t))

/-- The loop of R141: a prefix is consumed and the step goes on to the next word (R133), any other instruction ends the
step, and so does the end of the program (R131). `fuel` is the number of words from the PC to the end. -/
def isaLoop (fuel : Nat) (s : State) : Result :=
  match fuel with
  | 0 => .next s.haltPastEnd
  | fuel + 1 =>
    match s.fetchInstr with
    | none => .next s.haltPastEnd
    | some (i, s1) => if isPrefixWord i then onNext (exec i s1) (isaLoop fuel) else executePhase i s1

/-- `step()` in ISA mode, on a CPU that runs (R141). -/
def isaCycle (s : State) : Result := isaLoop (s.isaItems.length - s.pc) s.clearPend

/-- Fetch and Decode of a line (R135, R137). -/
def State.fetchLine (line : Text) (s : State) : State :=
  (s.emit (.fetchLine s.pc line)).emit (.decodeLine (parseLine line))

/-- `step()` in micro mode, on a CPU that runs (R142). -/
def microCycle (s : State) : Result :=
  match s.microLines[s.pc]? with
  | none => .next s.haltPastEnd
  | some line =>
    onNext (execLine (parseLine line) ((s.fetchLine line).emit .execute)) (fun t => .next (t.clearPend.emit .writeback))

/-- One step of the machine. A halted CPU has no successor (spec/93 U22). -/
def stepCycle (s : State) : Result :=
  if s.halted then .fault .halted
  else
    match s.mode with
    | .isa => isaCycle s
    | .micro => microCycle s

end Sys2Proof.Machine
end

