-- ==== Sys2Proof/Machine/Step.lean ====
section
/-!
DEFINITION. The step of the machine, and the placing of one instruction where it fetches.
-/

namespace Sys2Proof.Machine

/-- One step (R130 to R146), as `stepCycle` gives it. -/
def step (s : State) : Host.Outcome State Fault Refusal := stepCycle s

/-- `s` with the instruction whose bits are `w` at the PC of an ISA-mode program, on a CPU that runs (log entry 8). -/
def State.withFetchWord (s : State) (nbits w : Nat) : State := s.placeWords (tableWords nbits w)

end Sys2Proof.Machine
end

