-- ==== Sys2Proof/Machine/Preprocessor.lean ====
section
/-!
DEFINITION. The text passes before a program is built: trimming and label splitting (R87, R89), and the preprocessor of
IF, ELSE and END lines (R94 to R103).
-/

namespace Sys2Proof.Machine

/-- A line `name: rest` becomes the lines `name:` and `rest` (R89), again for a `rest` of that form (log entry 10).
`fuel` bounds the labels a line can hold. -/
def splitLabels (fuel : Nat) (t : Text) : List Text :=
  match fuel with
  | 0 => [t]
  | fuel + 1 =>
    match splitLabel t with
    | none => [t]
    | some (_, []) => [t]
    | some (name, rest) => (name ++ [':']) :: splitLabels fuel rest

/-- Steps 1 and 2 of every load (R100, R110): trim, drop empty lines, split labels off. -/
def cleanLines (lines : List Text) : List Text :=
  ((lines.map trim).filter (fun t => !t.isEmpty)).flatMap (fun t => splitLabels t.length t)

/-- The comparison operators of an IF line (R95). -/
inductive RelOp where
  | eq
  | ne
  | lt
  | gt
  | le
  | ge
deriving DecidableEq, Repr

/-- A comparison operator at the front of a text, the two-character ones first (R95). -/
def readRelOp (t : Text) : Option (RelOp × Text) :=
  match t with
  | '=' :: '=' :: rest => some (.eq, rest)
  | '!' :: '=' :: rest => some (.ne, rest)
  | '<' :: '=' :: rest => some (.le, rest)
  | '>' :: '=' :: rest => some (.ge, rest)
  | '<' :: rest => some (.lt, rest)
  | '>' :: rest => some (.gt, rest)
  | _ => none

/-- An IF line: the operator, both operand texts as written, and the right operand (R95, R96). -/
structure IfLine where
  op      : RelOp
  lhs     : Text
  rhs     : Text
  operand : Operand
deriving DecidableEq, Repr

/-- The characters of `t` that were read before `rest`. -/
def consumed (t rest : Text) : Text := t.take (t.length - rest.length)

/-- The word THEN and the end of the line, after white space (R95, log entry 9). -/
def endsInThen (t : Text) : Bool :=
  match t with
  | [] => false
  | ch :: _ =>
    isSpace ch &&
      (match readName (skipSpace t) with
       | some (name, rest) => upperText name == "THEN".toList && atEnd rest
       | none => false)

/-- `<rhs> THEN` (R95). -/
def parseIfRight (op : RelOp) (lhs t : Text) : Option IfLine :=
  match readOperand t with
  | none => none
  | some (operand, rest) =>
    if endsInThen rest then some { op := op, lhs := lhs, rhs := consumed t rest, operand := operand } else none

/-- `IF <lhs> <op> <rhs> THEN` (R95): `<lhs>` is a variable. -/
def parseIf (line : Text) : Option IfLine :=
  match readName line with
  | none => none
  | some (name, rest) =>
    if upperText name = "IF".toList then
      match readVarName (skipSpace rest) with
      | none => none
      | some (_, rest2) =>
        match readRelOp (skipSpace rest2) with
        | none => none
        | some (op, rest3) => parseIfRight op (consumed (skipSpace rest) rest2) (skipSpace rest3)
    else none

/-- The line `ELSE` (R101). -/
def isElse (line : Text) : Bool := upperText (trim line) == "ELSE".toList

/-- The lines `END` and `ENDIF` (R102). -/
def isEnd (line : Text) : Bool :=
  upperText (trim line) == "END".toList || upperText (trim line) == "ENDIF".toList

/-- The generated label names of IF number `n` (R95). -/
def ifLabel (n : Nat) (suffix : String) : Text := "__IF".toList ++ Nat.toDigits 10 n ++ suffix.toList

def elseLabel (n : Nat) : Text := ifLabel n "_ELSE"

def endLabel (n : Nat) : Text := ifLabel n "_END"

def v0Label (n : Nat) : Text := ifLabel n "_V0"

def contLabel (n : Nat) : Text := ifLabel n "_CONT"

/-- A line that declares a label. -/
def labelLine (name : Text) : Text := name ++ [':']

/-- A branch or jump line. -/
def jumpLine (mnemonic : String) (name : Text) : Text := mnemonic.toList ++ ' ' :: name

/-- The first line of a lowered IF (R96). -/
def compareLine (i : IfLine) : Text :=
  match i.operand with
  | .imm _ => "CMPI ".toList ++ i.lhs ++ ',' :: i.rhs
  | .var _ => "CMP ".toList ++ i.lhs ++ ',' :: i.rhs

/-- The right operand is the literal 0 (R98): the integer as written (log entry 13). -/
def comparesWithZero (i : IfLine) : Bool :=
  match i.operand with
  | .imm n => n == 0
  | .var _ => false

/-- The branch-on-false sequence of the zero fast path (R98), and of equality (R97). -/
def zeroBranches (n : Nat) (op : RelOp) : List Text :=
  match op with
  | .eq => [jumpLine "BNE" (elseLabel n)]
  | .ne => [jumpLine "BEQ" (elseLabel n)]
  | .lt => [jumpLine "BPL" (elseLabel n)]
  | .ge => [jumpLine "BMI" (elseLabel n)]
  | .le => [jumpLine "BEQ" (contLabel n), jumpLine "BPL" (elseLabel n), labelLine (contLabel n)]
  | .gt => [jumpLine "BMI" (elseLabel n), jumpLine "BEQ" (elseLabel n)]

/-- The branch-on-false sequence in general (R99), and of equality (R97). -/
def generalBranches (n : Nat) (op : RelOp) : List Text :=
  match op with
  | .eq => [jumpLine "BNE" (elseLabel n)]
  | .ne => [jumpLine "BEQ" (elseLabel n)]
  | .lt =>
    [jumpLine "BVC" (v0Label n), jumpLine "BMI" (elseLabel n), jumpLine "JMP" (contLabel n),
     labelLine (v0Label n), jumpLine "BPL" (elseLabel n), labelLine (contLabel n)]
  | .ge =>
    [jumpLine "BVC" (v0Label n), jumpLine "BPL" (elseLabel n), jumpLine "JMP" (contLabel n),
     labelLine (v0Label n), jumpLine "BMI" (elseLabel n), labelLine (contLabel n)]
  | .le =>
    [jumpLine "BVC" (v0Label n), jumpLine "BMI" (elseLabel n), jumpLine "JMP" (contLabel n),
     labelLine (v0Label n), jumpLine "BEQ" (contLabel n), jumpLine "BPL" (elseLabel n), labelLine (contLabel n)]
  | .gt =>
    [jumpLine "BVC" (v0Label n), jumpLine "BPL" (elseLabel n), jumpLine "JMP" (contLabel n),
     labelLine (v0Label n), jumpLine "BMI" (elseLabel n), jumpLine "BEQ" (elseLabel n), labelLine (contLabel n)]

/-- The lines an IF line becomes (R96 to R99). -/
def lowerIf (n : Nat) (i : IfLine) : List Text :=
  compareLine i :: (if comparesWithZero i then zeroBranches n i.op else generalBranches n i.op)

/-- An open IF (R94). The frame's labels are computed from its number; `base_label` is never used (spec/91 N17). -/
structure IfFrame where
  n       : Nat
  hasElse : Bool
deriving DecidableEq, Repr

/-- What an END emits for a frame (R102). -/
def closeFrame (f : IfFrame) : List Text :=
  (if f.hasElse then [] else [labelLine (elseLabel f.n)]) ++ [labelLine (endLabel f.n)]

/-- The preprocessor from a counter and a stack of open frames, innermost first (R94, R101 to R103). -/
def preprocessFrom (counter : Nat) (frames : List IfFrame) : List Text → List Text
  | [] => frames.flatMap closeFrame
  | line :: rest =>
    match parseIf line with
    | some i => lowerIf counter i ++ preprocessFrom (counter + 1) ({ n := counter, hasElse := false } :: frames) rest
    | none =>
      if isElse line then
        match frames with
        | [] => line :: preprocessFrom counter [] rest
        | f :: outer =>
          if f.hasElse then line :: preprocessFrom counter (f :: outer) rest
          else
            jumpLine "JMP" (endLabel f.n) :: labelLine (elseLabel f.n) ::
              preprocessFrom counter ({ f with hasElse := true } :: outer) rest
      else if isEnd line then
        match frames with
        | [] => line :: preprocessFrom counter [] rest
        | f :: outer => closeFrame f ++ preprocessFrom counter outer rest
      else line :: preprocessFrom counter frames rest

/-- The preprocessor: a pure function of the lines, its counter starting at 0 (R94). -/
def preprocess (lines : List Text) : List Text := preprocessFrom 0 [] lines

end Sys2Proof.Machine
end

