-- ==== Sys2Proof/Machine/Assembler.lean ====
section
/-!
DEFINITION. The loaders (spec/30_encoding.md Part D): the micro-mode line program (R100), the ISA-mode assembler with its
lowering tables and two passes (R110 to R115), and the load errors (R112).
-/

namespace Sys2Proof.Machine

/-- The load errors of R112. -/
inductive LoadError where
  | undefinedLabel (name : Text)
  | branchOutOfRange (index : Nat) (offset : Int)
  | duplicateLabel (name : Text)
  | unparseableLine (line : Text)
  /-- A sized build refuses a program its PC could not count (R26, spec/93 U13). -/
  | programTooLong (length : Nat)
deriving DecidableEq, Repr

/-- The register id of a variable as a `dst4` field (R113). -/
def rdField (v : Var) : BitVec 4 := BitVec.ofNat 4 (idOfVar v)

/-- The register id of a variable as an `arg8` field (R74, R113). -/
def rsField (v : Var) : Byte := BitVec.ofNat 8 (idOfVar v)

/-- "load A into X" (R114). -/
def loadInto (dst : Var) (p : Operand) : Instr :=
  match p with
  | .var v => .mov (rdField dst) (rsField v)
  | .imm n => .movi (rdField dst) (byteOfInt n)

/-- Adding an operand to `X` (R114). -/
def addTo (dst : Var) (p : Operand) : Instr :=
  match p with
  | .var v => .add (rdField dst) (rsField v)
  | .imm n => .addi (rdField dst) (byteOfInt n)

/-- Subtracting an operand from `X` (R114). -/
def subFrom (dst : Var) (p : Operand) : Instr :=
  match p with
  | .var v => .sub (rdField dst) (rsField v)
  | .imm n => .subi (rdField dst) (byteOfInt n)

/-- The rows of R114 for `X = A + B`. -/
def lowerAdd (dst : Var) (a b : Operand) : List Instr :=
  if a = .var dst then [addTo dst b]
  else if b = .var dst then [addTo dst a]
  else [loadInto dst a, addTo dst b]

/-- The operand is an immediate whose pattern is 0 (R114). -/
def isZeroImm (p : Operand) : Bool :=
  match p with
  | .var _ => false
  | .imm n => byteOfInt n == 0#8

/-- The rows of R114 for `X = A - B`. -/
def lowerSub (dst : Var) (a b : Operand) : List Instr :=
  if a = .var dst then [subFrom dst b]
  else if b = .var dst then
    if isZeroImm a then [.neg (rdField dst)] else [.neg (rdField dst), addTo dst a]
  else [loadInto dst a, subFrom dst b]

/-- A branch word with displacement 0, for pass 2 to fix (R111, R113). -/
def branchInstr (c : Cond) (disp : Byte) : Instr :=
  match c with
  | .eq => .beq disp
  | .ne => .bne disp
  | .pl => .bpl disp
  | .mi => .bmi disp
  | .vc => .bvc disp
  | .vs => .bvs disp
  | .cc => .bcc disp
  | .cs => .bcs disp

/-- The instructions a line is lowered to (R113, R114). A label line has none (R111). -/
def lowerLine (op : LineOp) : List Instr :=
  match op with
  | .nop => [.nop]
  | .halt => [.halt]
  | .label _ => []
  | .print _ => [.nop]
  | .mov v1 v2 => [.mov (rdField v1) (rsField v2)]
  | .movi v n => [.movi (rdField v) (byteOfInt n)]
  | .add v1 v2 => [.add (rdField v1) (rsField v2)]
  | .addi v n => [.addi (rdField v) (byteOfInt n)]
  | .sub v1 v2 => [.sub (rdField v1) (rsField v2)]
  | .subi v n => [.subi (rdField v) (byteOfInt n)]
  | .neg v => [.neg (rdField v)]
  | .and v1 v2 => [.and (rdField v1) (rsField v2)]
  | .or v1 v2 => [.or (rdField v1) (rsField v2)]
  | .xor v1 v2 => [.xor (rdField v1) (rsField v2)]
  | .shl v => [.shl (rdField v)]
  | .shr v => [.shr (rdField v)]
  | .cmp v1 v2 => [.cmp (rdField v1) (rsField v2)]
  | .cmpi v n => [.cmpi (rdField v) (byteOfInt n)]
  | .jmp _ => [.jmp 0#8]
  | .branch c _ => [branchInstr c 0#8]
  | .assign dst p => [loadInto dst p]
  | .assignAdd dst a b => lowerAdd dst a b
  | .assignSub dst a b => lowerSub dst a b
  | .unparseable _ => [.nop]

/-- The words a line is lowered to. -/
def lowerWords (op : LineOp) : List Word := (lowerLine op).flatMap encode

/-- The label a JMP or branch line names: its word is a site for pass 2 (R111). -/
def LineOp.site (op : LineOp) : Option Text :=
  match op with
  | .jmp name => some name
  | .branch _ name => some name
  | _ => none

/-- An item between the passes: its word, its text, and the label its displacement waits for. -/
structure PendingItem where
  word : Word
  text : Text
  site : Option Text
deriving DecidableEq, Repr

/-- The items of a line. Each carries the line as its debug string (log entry 11). -/
def pendingItems (line : Text) (op : LineOp) : List PendingItem :=
  (lowerWords op).map (fun w => { word := w, text := line, site := op.site })

/-- Pass 1 (R111), with the load errors it can meet (R112, log entry 12). -/
def pass1 (strict : Bool) (items : List PendingItem) (labels : List (Text × Nat)) :
    List Text → Except LoadError (List PendingItem × List (Text × Nat))
  | [] => .ok (items, labels)
  | line :: rest =>
    match parseLine line with
    | .label name =>
      if (lookupLabel name labels).isSome then .error (.duplicateLabel name)
      else pass1 strict items (labels ++ [(name, items.length)]) rest
    | op =>
      if strict && op.isUnparseable then .error (.unparseableLine line)
      else pass1 strict (items ++ pendingItems line op) labels rest

/-- `offset = target_index - (branch_index + 1)` (R115). -/
def branchOffset (target index : Nat) : Int := (target : Int) - ((index : Int) + 1)

/-- The word of a site with its displacement put in (R115): the low byte replaced by `offset & 0xFF`. -/
def fixWord (w : Word) (offset : Int) : Word := mkWord (op4 w) (dst4 w) (byteOfInt offset)

/-- One item of pass 2 (R115). -/
def fixItem (labels : List (Text × Nat)) (index : Nat) (item : PendingItem) : Except LoadError IsaItem :=
  match item.site with
  | none => .ok { word := item.word, text := item.text }
  | some name =>
    match lookupLabel name labels with
    | none => .error (.undefinedLabel name)
    | some target =>
      let offset := branchOffset target index
      if offset < -128 ∨ 127 < offset then .error (.branchOutOfRange index offset)
      else .ok { word := fixWord item.word offset, text := item.text }

/-- Pass 2 (R115), from an index on. -/
def pass2 (labels : List (Text × Nat)) (index : Nat) : List PendingItem → Except LoadError (List IsaItem)
  | [] => .ok []
  | item :: rest =>
    match fixItem labels index item with
    | .error e => .error e
    | .ok fixed =>
      match pass2 labels (index + 1) rest with
      | .error e => .error e
      | .ok more => .ok (fixed :: more)

/-- The assembler over clean lines (R110). -/
def assemble (strict : Bool) (lines : List Text) : Except LoadError (List IsaItem) :=
  match pass1 strict [] [] (preprocess lines) with
  | .error e => .error e
  | .ok (items, labels) => pass2 labels 0 items

/-- Step 4 of R100: label lines are recorded and dropped, every other line is an item. -/
def microWalk (strict : Bool) (items : List Text) (labels : List (Text × Nat)) :
    List Text → Except LoadError (List Text × List (Text × Nat))
  | [] => .ok (items, labels)
  | line :: rest =>
    match parseLine line with
    | .label name =>
      if (lookupLabel name labels).isSome then .error (.duplicateLabel name)
      else microWalk strict items (labels ++ [(name, items.length)]) rest
    | op =>
      if strict && op.isUnparseable then .error (.unparseableLine line)
      else microWalk strict (items ++ [line]) labels rest

/-- The premise of a sized build (R26): `len(PROGRAM) + 128 < 2^PC_BITS`. -/
def fitsPc (p : Params) (length : Nat) : Bool :=
  match p.pcBits with
  | none => true
  | some bits => length + 128 < 2 ^ bits

/-- Building `PROGRAM` from source lines (R270 step 1). -/
def buildProgram (p : Params) (m : Mode) (lines : List Text) : Except LoadError Program :=
  match m with
  | .isa =>
    match assemble p.strictParse (cleanLines lines) with
    | .error e => .error e
    | .ok items => if fitsPc p items.length then .ok (.isa items) else .error (.programTooLong items.length)
  | .micro =>
    match microWalk p.strictParse [] [] (preprocess (cleanLines lines)) with
    | .error e => .error e
    | .ok (items, labels) =>
      if fitsPc p items.length then .ok (.micro items labels) else .error (.programTooLong items.length)

end Sys2Proof.Machine
end

