-- ==== Sys2Proof/Machine/HostOps.lean ====
section
/-!
DEFINITION. The operations of the host between steps (R144, R270 to R276): load, reset, the store's port, step and run.
-/

namespace Sys2Proof.Machine

/-- `load_program(lines)` (R270): on a load error there is no new state, the CPU stays as it was. -/
def State.loadProgram (lines : List Text) (s : State) : Except LoadError State :=
  match buildProgram s.params s.mode lines with
  | .error e => .error e
  | .ok program => .ok { s with program := program }.resetRegisters

/-- `step() -> bool` (R144): it returns `not halted`, and on a halted CPU it changes nothing (R130). -/
def stepOp (s : State) : Bool × State :=
  match step s with
  | .next t => (!t.halted, t)
  | .fault _ => (false, s)
  | .refused _ => (false, s)

/-- `run()` (R144), `while step(): skip`, for at most `fuel` steps (R286, spec/92 D36). -/
def runFor (fuel : Nat) (s : State) : State :=
  match fuel with
  | 0 => s
  | fuel + 1 => if (stepOp s).1 then runFor fuel (stepOp s).2 else (stepOp s).2

/-- A move of the host (R276). -/
inductive HostMove where
  | load (lines : List Text)
  | reset
  | clearStore
  | set (c : CellName) (value : Int)
  | step
deriving DecidableEq, Repr

/-- What a move leaves. A failed load and a `set` that the spec gives no meaning leave the state as it was. -/
def hostMove (m : HostMove) (s : State) : State :=
  match m with
  | .load lines =>
    match s.loadProgram lines with
    | .ok t => t
    | .error _ => s
  | .reset => s.resetRegisters
  | .clearStore => s.clearStore
  | .set c value => (s.cellSet c value).getD s
  | .step => (stepOp s).2

end Sys2Proof.Machine
end

