-- ==== Sys2Proof/Machine/SpecLoop.lean ====
section
/-!
DEFINITION. The pseudo-code of R141, transcribed word by word: the reference that `step` in ISA mode is compared with.
The step itself (Cycle.lean) runs the CMPI pair as one instruction of the table; here a CMP word reads `pend`.
-/

namespace Sys2Proof.Machine

/-- `malformed(op4, dst4, arg8, pend)` of R141. -/
def malformedWord (op dst : BitVec 4) (arg : Byte) (pend : Option Byte) : Bool :=
  (decide (2 ≤ op.toNat ∧ op.toNat ≤ 13) && decide (8 < dst.toNat)) ||
    ((op.toNat == 2 || op.toNat == 4 || op.toNat == 6 || op.toNat == 8 || op.toNat == 9 || op.toNat == 10) &&
      decide (8 < arg.toNat)) ||
    (op.toNat == 13 && pend.isNone && decide (8 < arg.toNat)) ||
    (op.toNat == 15 && decide (7 < dst.toNat))

/-- The loop of R141. `fuel` is the number of words from the PC to the end. -/
def specLoop (fuel : Nat) (s : State) : Result :=
  match fuel with
  | 0 => .next s.haltPastEnd
  | fuel + 1 =>
    match s.wordsAtPc with
    | [] => .next s.haltPastEnd
    | w :: _ =>
      let s1 := s.fetchWord s.pc w
      if op4 w = 0#4 ∧ dst4 w = 0xE#4 then specLoop fuel (s1.latch (arg8 w))
      else if malformedWord (op4 w) (dst4 w) (arg8 w) s1.pend then .next s1.raiseMalformed
      else onNext (exec (decodeWord w) (s1.emit .execute)) (fun t => .next (t.clearPend.emit .writeback))

/-- `step()` in ISA mode as R141 writes it, on a CPU that runs. -/
def specCycle (s : State) : Result := specLoop (s.isaItems.length - s.pc) s.clearPend

end Sys2Proof.Machine
end

