-- ==== Sys2Proof/Safety.lean ====
section
/-!
DEFINITION. What counts as a sound boundary of a step and as a clean end of a run, in the terms claims use.
-/

namespace Sys2Proof.Machine

/-- What holds at every step boundary: no pending immediate is left (R134), and a recorded fault means a halted CPU
(R250). -/
def State.boundary (s : State) : Bool := s.pend.isNone && (s.lastFault.isNone || s.halted)

/-- The CPU's flags and the store's mirrors agree (R30). -/
def State.mirrored (s : State) : Bool := s.mirror == s.flags

/-- The PC is no further than a branch from the last item reaches (spec/92 D14). -/
def State.pcInReach (s : State) : Bool := decide (s.pc ≤ s.programLength + 127)

/-- Every label of a micro-mode program is an index of the program or its end (R100). -/
def State.labelsInRange (s : State) : Bool :=
  match s.program with
  | .isa _ => true
  | .micro lines labels => labels.all (fun p => decide (p.2 ≤ lines.length))

/-- Instructions executed one after the other, for the lowering rules (R114). -/
def execAll : List Instr → State → Result
  | [], s => .next s
  | i :: rest, s => onNext (exec i s) (execAll rest)

/-- The words a line is lowered to, as the numbers the table of R113 gives them. -/
def lineWords (op : LineOp) : List Nat := (lowerWords op).map BitVec.toNat

/-! The flags the rules give an instruction, in integer arithmetic, without the bit-serial ALU. -/

/-- After an addition (R158 to R161, R180). -/
def sumFlags (a b : Byte) : Flags :=
  { z := decide (wrap8 (a.toInt + b.toInt) = 0),
    n := decide (wrap8 (a.toInt + b.toInt) < 0),
    v := decide (a.toInt + b.toInt < -128 ∨ 127 < a.toInt + b.toInt),
    c := decide (256 ≤ a.toNat + b.toNat) }

/-- After a subtraction (R158 to R161, R182). -/
def differenceFlags (p : Params) (a b : Byte) : Flags :=
  { z := decide (wrap8 (a.toInt - b.toInt) = 0),
    n := decide (wrap8 (a.toInt - b.toInt) < 0),
    v := decide (a.toInt - b.toInt < -128 ∨ 127 < a.toInt - b.toInt),
    c := match p.cSub with
         | .borrow => decide (a.toNat < b.toNat)
         | .notBorrow => decide (b.toNat ≤ a.toNat) }

/-- After NEG of `b` (R158 to R161, R184). -/
def negFlags (p : Params) (b : Byte) : Flags :=
  { z := decide (b = 0#8),
    n := decide (0 < b.toInt ∨ b.toInt = -128),
    v := decide (b.toInt = -128),
    c := match p.cSub with
         | .borrow => decide (b ≠ 0#8)
         | .notBorrow => decide (b = 0#8) }

/-- After AND, OR, XOR with the result `r`, over the flags before (R162, R190). -/
def logicFlags (p : Params) (r : Byte) (old : Flags) : Flags :=
  match p.logicVC with
  | .clear => { z := decide (r.toInt = 0), n := decide (r.toInt < 0), v := false, c := false }
  | .unchanged => { z := decide (r.toInt = 0), n := decide (r.toInt < 0), v := old.v, c := old.c }

/-- After SHL of `a` (R193): V is "did the sign bit change", which is the doubled value leaving the signed range. -/
def shlFlags (a : Byte) : Flags :=
  { z := decide (wrap8 (2 * a.toInt) = 0),
    n := decide (wrap8 (2 * a.toInt) < 0),
    v := decide (2 * a.toInt < -128 ∨ 127 < 2 * a.toInt),
    c := decide (128 ≤ a.toNat) }

/-- After SHR of `a` (R194). -/
def shrFlags (a : Byte) : Flags :=
  { z := decide (a.toInt / 2 = 0),
    n := decide (a.toInt < 0),
    v := false,
    c := decide (a.toNat % 2 = 1) }

/-- The ways a run ends (R241). -/
inductive StopReason where
  | haltInstruction
  | fetchPastEnd
  | faulted (record : FaultRecord)
deriving DecidableEq, Repr

/-- How the host tells the ends apart (R242, R277): by `last_fault`, and for a clean halt by the PC. -/
def State.stopReason (s : State) : Option StopReason :=
  if s.halted then
    match s.lastFault with
    | some record => some (.faulted record)
    | none => if s.pc < s.programLength then some .haltInstruction else some .fetchPastEnd
  else none

end Sys2Proof.Machine
end

