-- ==== Sys2Proof/Certificates/Slice0/Obligations.lean ====
section
/-!
DEFINITION. The statements for the provers. Each docstring names the rules of spec/ it formalises. Where a clause rests on
a choice the spec marks as its own (a decision D<n> of spec/92_eei_decisions.md) or on a log entry of the model, the
docstring says so and the statement's basis is 'derived'.
-/

open Sys2Proof Sys2Proof.Machine

/-! Encoding and operands. -/

/-- Decoding the words of an instruction gives it back, with every operand at every value and whatever follows (R71, R75).
An EXT followed by a CMP word is the CMPI pair (R79), so for EXT what follows is not a CMP word. The bit positions are
the spec's decision D2. -/
def Obligations.DecodeReadsBackEncode : Prop :=
  ∀ (i : Instr) (rest : List Word),
    (∀ imm w ws rd rs, i = .ext imm → rest = w :: ws → decodeWord w ≠ .cmp rd rs) →
    decode (encode i ++ rest) = .ok (i, rest)

/-- The first row of the opcode table that a word fits is the word's instruction (R84). -/
def Obligations.FirstTableRowIsTheInstruction : Prop :=
  ∀ w : Word, ∃ row, tableRow w = some row ∧ row.mnemonic = (decodeWord w).mnemonic

/-- Words written out bit by bit from the table decode to what they stand for, one of each family and the CMPI pair. The bit
positions are the spec's decision D2 (log entry 3), that conditions 8 to 15 are reserved its decision D5 (log entry 5). -/
def Obligations.SpecWordsDecode : Prop :=
  decodeWord 0b0000000000000000#16 = .nop ∧ decodeWord 0b0001000000000000#16 = .halt ∧
  decodeWord 0b0010010000000101#16 = .mov 4 5 ∧ decodeWord 0b0011010011111001#16 = .movi 4 0xF9 ∧
  decodeWord 0b0100010000000101#16 = .add 4 5 ∧ decodeWord 0b1100010000000000#16 = .neg 4 ∧
  decodeWord 0b1000010000000101#16 = .and 4 5 ∧ decodeWord 0b1011010000000001#16 = .shr 4 ∧
  decodeWord 0b1110000011111011#16 = .jmp 0xFB ∧ decodeWord 0b1111000111111110#16 = .bne 0xFE ∧
  decodeWord 0b1111100000000000#16 = .reserved 0 0 ∧
  decode [0b0000111000000101#16, 0b1101010000000000#16] = .ok (.cmpi 4 5, [])

/-- R76: opcode 0 with the sentinel 0xE in `dst4` is EXT whatever its `arg8`, with any other `dst4` it is NOP. -/
def Obligations.OpcodeZeroIsExtOrNop : Prop :=
  ∀ w : Word, op4 w = 0#4 →
    (dst4 w = 0xE#4 → decodeWord w = .ext (arg8 w)) ∧ (dst4 w ≠ 0xE#4 → decodeWord w = .nop)

/-- R80: the ignored bits take no part: `dst4` and `arg8` of HALT, `arg8` of NEG, bits 7:1 of a shift, `dst4` of JMP, and
`arg8` of a CMP word that follows an EXT. That they are ignored is the spec's decision D4. -/
def Obligations.IgnoredBitsTakeNoPart : Prop :=
  ∀ w : Word,
    (op4 w = 0x1#4 → decodeWord w = .halt) ∧
    (op4 w = 0xC#4 → decodeWord w = .neg (dst4 w)) ∧
    (op4 w = 0xB#4 → decodeWord w = if (arg8 w).toNat % 2 = 1 then .shr (dst4 w) else .shl (dst4 w)) ∧
    (op4 w = 0xE#4 → decodeWord w = .jmp (arg8 w)) ∧
    (∀ v : Word, op4 v = 0#4 → dst4 v = 0xE#4 → op4 w = 0xD#4 →
      ∀ rest, decode (v :: w :: rest) = .ok (.cmpi (dst4 w) (arg8 v), rest))

/-- A program's bytes, high byte of each word first, read back as its words (R57, the spec's decision D2). -/
def Obligations.BytesReadBackAsWords : Prop :=
  (∀ ws : List Word, wordsOfBytes (ws.flatMap wordBytes) = .ok ws) ∧
  (∀ w : Word, (wordBytes w).map BitVec.toNat = [(op4 w).toNat * 16 + (dst4 w).toNat, (arg8 w).toNat])

/-- R21: the ids 0 to 8 name q, w, e, r, a, s, d, z, x; `rd` is the id in `dst4` and `rs` the id in `arg8`; no greater id
names a register; and the fields the assembler writes for a variable name that variable. The
numbering is the spec's decision D1, that all of `arg8` is the id its decision D3. -/
def Obligations.RegisterIdsNameTheVariables : Prop :=
  (List.range 9).map varOfId =
    [some .q, some .w, some .e, some .r, some .a, some .s, some .d, some .z, some .x] ∧
  (∀ rd : BitVec 4, rdVar rd = varOfId rd.toNat ∧ (8 < rd.toNat → rdVar rd = none)) ∧
  (∀ rs : Byte, rsVar rs = varOfId rs.toNat ∧ (8 < rs.toNat → rsVar rs = none)) ∧
  (∀ v : Var, varOfId (idOfVar v) = some v ∧ rdVar (rdField v) = some v ∧ rsVar (rsField v) = some v)

/-- R104: the displacement is the signed distance from the item after the branch, and what the assembler stores for a
target in reach leads the branch to it. -/
def Obligations.DisplacementReachesTarget : Prop :=
  ∀ (target index : Nat) (s : State), s.pc = index →
    -128 ≤ branchOffset target index → branchOffset target index ≤ 127 →
    branchOffset target index = (target : Int) - ((index : Int) + 1) ∧
    (byteOfInt (branchOffset target index)).toNat = u8 (branchOffset target index) ∧
    branchTarget (byteOfInt (branchOffset target index)) s =
      (index : Int) + 1 + (byteOfInt (branchOffset target index)).toInt ∧
    branchTarget (byteOfInt (branchOffset target index)) s = (target : Int)

/-! The cells. -/

/-- R23: a value written to a variable is wrapped first, and a read always gives a value in [-128, 127]. -/
def Obligations.WrittenVariableIsWrapped : Prop :=
  ∀ (s : State) (v : Var) (n : Int),
    ((s.writeVar v (byteOfInt n)).readVar v).toInt = wrap8 n ∧
    (∀ u, -128 ≤ (s.readVar u).toInt ∧ (s.readVar u).toInt ≤ 127)

/-- The store is faithful (R54, R55): after a `set`, `get` of that cell gives the value stored, every other cell reads as
before, and nothing else of the machine changes but cells. The spec marks the faithful store as its decision D30; what
values a bit cell takes is log entry 15. -/
def Obligations.CellReadsLastWrite : Prop :=
  ∀ (s t : State) (c : CellName) (value : Int), s.cellSet c value = some t →
    t.cellGet c = (match c with
      | .var _ => wrap8 value
      | .scratch _ _ => value
      | .cy => value
      | .flag _ => value) ∧
    (∀ c', c' ≠ c → t.cellGet c' = s.cellGet c') ∧
    { t with vars := s.vars, scratch := s.scratch, mirror := s.mirror } = s

/-- `clear_store()` zeroes all 38 cells and touches nothing else (R273). -/
def Obligations.ClearStoreZeroesEveryCell : Prop :=
  ∀ s : State, (∀ c, s.clearStore.cellGet c = 0) ∧
    { s.clearStore with vars := s.vars, scratch := s.scratch, mirror := s.mirror } = s

/-! The ALU. -/

/-- R152 and R153: unpacking puts the pattern of a value into a scratch register, bit `k` in cell `[k]`, and touches no
other cell; packing is the signed value of the eight cells, so packing what was unpacked gives the value. -/
def Obligations.PackOfUnpackIsTheValue : Prop :=
  (∀ (sc : Scratch) (r : ScratchReg),
    (sc.get r).toInt = s8 (bitValue (sc.getCell r 0) + 2 * bitValue (sc.getCell r 1) + 4 * bitValue (sc.getCell r 2) +
      8 * bitValue (sc.getCell r 3) + 16 * bitValue (sc.getCell r 4) + 32 * bitValue (sc.getCell r 5) +
      64 * bitValue (sc.getCell r 6) + 128 * bitValue (sc.getCell r 7))) ∧
  (∀ (s : State) (r : ScratchReg) (v : Byte),
    s.runMicro (unpackOps r v) = { s with scratch := s.scratch.set r v } ∧
    (∀ k : Fin 8, bitValue ((s.runMicro (unpackOps r v)).scratch.getCell r k) = bitOf v.toInt k))

/-- R166: for all operands the table-driven ripple adder and subtractor give native two's-complement arithmetic with
wraparound. -/
def Obligations.RippleEqualsNativeArithmetic : Prop :=
  ∀ (s : State) (a b : Byte),
    ((s.alu .add a b).scratch.get .res).toInt = wrap8 (a.toInt + b.toInt) ∧
    ((s.alu .sub a b).scratch.get .res).toInt = wrap8 (a.toInt - b.toInt)

/-- R158 and R159: after every ALU function Z is true exactly when all eight `RES` bits are 0, that is when the result is
0, and N is `RES[7]`, true exactly when the result is negative. -/
def Obligations.ZeroAndNegativeFlagsOfEveryFunction : Prop :=
  ∀ (f : AluFn) (s t : State) (a b : Byte), t = s.alu f a b →
    (t.flags.z = true ↔ ∀ k : Fin 8, t.scratch.getCell .res k = false) ∧
    (t.flags.z = true ↔ t.scratch.res.toInt = 0) ∧
    t.flags.n = t.scratch.getCell .res 7 ∧ (t.flags.n = true ↔ t.scratch.res.toInt < 0)

/-- The signed order of two bytes from the flags of their comparison: the "true when" column of R99, and Z for equality
(R97). The spec marks the column as general knowledge. -/
def Obligations.CompareFlagsGiveTheSignedOrder : Prop :=
  ∀ (s : State) (a b : Byte) (fl : Flags), fl = (s.alu .sub a b).flags →
    (a.toInt = b.toInt ↔ fl.z = true) ∧ (a.toInt < b.toInt ↔ fl.n ≠ fl.v) ∧ (b.toInt ≤ a.toInt ↔ fl.n = fl.v) ∧
    (a.toInt ≤ b.toInt ↔ fl.z = true ∨ fl.n ≠ fl.v) ∧ (b.toInt < a.toInt ↔ fl.z = false ∧ fl.n = fl.v)

/-! Results and frames of the instructions: each conclusion is the whole next state, so that what it does not name is
unchanged. -/

/-- R170: every opcode-0 word whose `dst4` is not 0xE, the line `NOP` and every line that matches no form only advance the
PC. -/
def Obligations.NopOnlyAdvancesThePc : Prop :=
  ∀ s : State,
    (∀ w : Word, op4 w = 0#4 → dst4 w ≠ 0xE#4 → exec (decodeWord w) s = .next { s with pc := s.pc + 1 }) ∧
    parseLine "NOP".toList = .nop ∧ execLine .nop s = .next { s with pc := s.pc + 1 } ∧
    (∀ line, execLine (.unparseable line) s = .next { s with pc := s.pc + 1 })

/-- R171: HALT latches `halted` and changes nothing else. That the PC stays is the spec's decision D13. -/
def Obligations.HaltOnlyHalts : Prop :=
  ∀ s : State, exec .halt s = .next { s with halted := true }

/-- R174 and R175: MOV copies a variable, MOVI loads a signed immediate; flags and scratch cells are untouched. -/
def Obligations.MovesCopyAndLoad : Prop :=
  (∀ (rd : BitVec 4) (rs : Byte) (dv rv : Var) (s : State), rdVar rd = some dv → rsVar rs = some rv →
    exec (.mov rd rs) s = .next { s with pc := s.pc + 1, vars := s.vars.set dv (s.readVar rv) }) ∧
  (∀ (rd : BitVec 4) (imm : Byte) (dv : Var) (s : State), rdVar rd = some dv →
    exec (.movi rd imm) s = .next { s with pc := s.pc + 1, vars := s.vars.set dv imm })

/-- R180 and R181: ADD and ADDI write the wrapped sum, all four flags and their mirrors, and the scratch cells of R164.
C is the spec's decision D7, the scratch cells its decisions D9 and D10, the mirrors D19. -/
def Obligations.AddWritesWrappedSum : Prop :=
  ∀ (rd : BitVec 4) (dv : Var) (s : State), rdVar rd = some dv →
    (∀ (rs : Byte) (rv : Var) (a b : Byte), rsVar rs = some rv → s.readVar dv = a → s.readVar rv = b →
      exec (.add rd rs) s = .next { s with
        pc := s.pc + 1, vars := s.vars.set dv (byteOfInt (a.toInt + b.toInt)),
        scratch := { src1 := a, src2 := b, res := byteOfInt (a.toInt + b.toInt), cy := decide (256 ≤ a.toNat + b.toNat) },
        flags := sumFlags a b, mirror := sumFlags a b }) ∧
    (∀ imm a : Byte, s.readVar dv = a →
      exec (.addi rd imm) s = .next { s with
        pc := s.pc + 1, vars := s.vars.set dv (byteOfInt (a.toInt + imm.toInt)),
        scratch :=
          { src1 := a, src2 := imm, res := byteOfInt (a.toInt + imm.toInt), cy := decide (256 ≤ a.toNat + imm.toNat) },
        flags := sumFlags a imm, mirror := sumFlags a imm })

/-- R182 and R183: SUB and SUBI write the wrapped difference, all four flags and their mirrors, and the scratch cells of
R164. C is the spec's decision D7 with its parameter C_SUB, the scratch cells D9 and D10, the mirrors D19. -/
def Obligations.SubWritesWrappedDifference : Prop :=
  ∀ (rd : BitVec 4) (dv : Var) (s : State), rdVar rd = some dv →
    (∀ (rs : Byte) (rv : Var) (a b : Byte), rsVar rs = some rv → s.readVar dv = a → s.readVar rv = b →
      exec (.sub rd rs) s = .next { s with
        pc := s.pc + 1, vars := s.vars.set dv (byteOfInt (a.toInt - b.toInt)),
        scratch := { src1 := a, src2 := b, res := byteOfInt (a.toInt - b.toInt), cy := decide (a.toNat < b.toNat) },
        flags := differenceFlags s.params a b, mirror := differenceFlags s.params a b }) ∧
    (∀ imm a : Byte, s.readVar dv = a →
      exec (.subi rd imm) s = .next { s with
        pc := s.pc + 1, vars := s.vars.set dv (byteOfInt (a.toInt - imm.toInt)),
        scratch :=
          { src1 := a, src2 := imm, res := byteOfInt (a.toInt - imm.toInt), cy := decide (a.toNat < imm.toNat) },
        flags := differenceFlags s.params a imm, mirror := differenceFlags s.params a imm })

/-- R184: NEG is 0 minus its operand: the wrapped negation, V only for -128, C (with C_SUB = borrow) when the operand is
not 0. That it writes all four flags is the spec's decision D8. -/
def Obligations.NegWritesWrappedNegation : Prop :=
  ∀ (rd : BitVec 4) (dv : Var) (s : State) (b : Byte), rdVar rd = some dv → s.readVar dv = b →
    exec (.neg rd) s = .next { s with
      pc := s.pc + 1, vars := s.vars.set dv (byteOfInt (-b.toInt)),
      scratch := { src1 := 0#8, src2 := b, res := byteOfInt (-b.toInt), cy := decide (b ≠ 0#8) },
      flags := negFlags s.params b, mirror := negFlags s.params b }

/-- R190 to R192: AND, OR and XOR write the bitwise result, the flags of R162 for both values of LOGIC_VC, and SRC1, SRC2,
RES; CY is untouched. V and C are the spec's decision D6, the scratch cells D10. -/
def Obligations.LogicWritesBitwiseResult : Prop :=
  ∀ (rd : BitVec 4) (rs : Byte) (dv rv : Var) (s : State) (a b : Byte), rdVar rd = some dv → rsVar rs = some rv →
    s.readVar dv = a → s.readVar rv = b →
    exec (.and rd rs) s = .next { s with
      pc := s.pc + 1, vars := s.vars.set dv (a &&& b),
      scratch := { src1 := a, src2 := b, res := a &&& b, cy := s.scratch.cy },
      flags := logicFlags s.params (a &&& b) s.flags, mirror := logicFlags s.params (a &&& b) s.mirror } ∧
    exec (.or rd rs) s = .next { s with
      pc := s.pc + 1, vars := s.vars.set dv (a ||| b),
      scratch := { src1 := a, src2 := b, res := a ||| b, cy := s.scratch.cy },
      flags := logicFlags s.params (a ||| b) s.flags, mirror := logicFlags s.params (a ||| b) s.mirror } ∧
    exec (.xor rd rs) s = .next { s with
      pc := s.pc + 1, vars := s.vars.set dv (a ^^^ b),
      scratch := { src1 := a, src2 := b, res := a ^^^ b, cy := s.scratch.cy },
      flags := logicFlags s.params (a ^^^ b) s.flags, mirror := logicFlags s.params (a ^^^ b) s.mirror }

/-- R193: SHL doubles with wraparound; V is "did the sign bit change", C the old bit 7. The scratch cells are the spec's
decision D10. -/
def Obligations.ShlDoublesWithWrap : Prop :=
  ∀ (rd : BitVec 4) (dv : Var) (s : State) (a : Byte), rdVar rd = some dv → s.readVar dv = a →
    exec (.shl rd) s = .next { s with
      pc := s.pc + 1, vars := s.vars.set dv (byteOfInt (2 * a.toInt)),
      scratch :=
        { src1 := a, src2 := s.scratch.src2, res := byteOfInt (2 * a.toInt), cy := decide (128 ≤ a.toNat) },
      flags := shlFlags a, mirror := shlFlags a }

/-- R194: SHR halves toward minus infinity; V is false, C the old bit 0. The scratch cells are the spec's decision D10. -/
def Obligations.ShrHalvesKeepingSign : Prop :=
  ∀ (rd : BitVec 4) (dv : Var) (s : State) (a : Byte), rdVar rd = some dv → s.readVar dv = a →
    exec (.shr rd) s = .next { s with
      pc := s.pc + 1, vars := s.vars.set dv (byteOfInt (a.toInt / 2)),
      scratch :=
        { src1 := a, src2 := s.scratch.src2, res := byteOfInt (a.toInt / 2), cy := decide (a.toNat % 2 = 1) },
      flags := shrFlags a, mirror := shrFlags a }

/-- R133 and R200: EXT latches its immediate, goes past its word, and changes nothing else. -/
def Obligations.ExtLatchesTheImmediate : Prop :=
  ∀ (imm : Byte) (s : State), exec (.ext imm) s = .next { s with pend := some imm, pc := s.pc + 1 }

/-- R202 and R203: CMP and CMPI write the flags and scratch cells of a subtraction and no variable. With a pending
immediate the CMP word's `arg8` is ignored and unchecked; CMPI is the pair, past both its words. C is the spec's decision
D7 and D8, the scratch cells D10. -/
def Obligations.CompareWritesFlagsOnly : Prop :=
  ∀ (rd : BitVec 4) (dv : Var) (s : State) (a : Byte), rdVar rd = some dv → s.readVar dv = a →
    (∀ (rs : Byte) (rv : Var) (b : Byte), s.pend = none → rsVar rs = some rv → s.readVar rv = b →
      exec (.cmp rd rs) s = .next { s with
        pc := s.pc + 1,
        scratch := { src1 := a, src2 := b, res := byteOfInt (a.toInt - b.toInt), cy := decide (a.toNat < b.toNat) },
        flags := differenceFlags s.params a b, mirror := differenceFlags s.params a b }) ∧
    (∀ rs imm : Byte, s.pend = some imm →
      exec (.cmp rd rs) s = .next { s with
        pc := s.pc + 1, pend := none,
        scratch :=
          { src1 := a, src2 := imm, res := byteOfInt (a.toInt - imm.toInt), cy := decide (a.toNat < imm.toNat) },
        flags := differenceFlags s.params a imm, mirror := differenceFlags s.params a imm }) ∧
    (∀ imm : Byte,
      exec (.cmpi rd imm) s = .next { s with
        pc := s.pc + 2, pend := none,
        scratch :=
          { src1 := a, src2 := imm, res := byteOfInt (a.toInt - imm.toInt), cy := decide (a.toNat < imm.toNat) },
        flags := differenceFlags s.params a imm, mirror := differenceFlags s.params a imm })

/-- R213: JMP goes to `c + 1 + sext_8(arg8)` and changes nothing but the PC, for a target that is an index (R212). -/
def Obligations.JmpGoesToItsTarget : Prop :=
  ∀ (disp : Byte) (s : State) (target : Nat), (s.pc : Int) + 1 + disp.toInt = (target : Int) →
    exec (.jmp disp) s = .next { s with pc := target }

/-- R214 to R221: each conditional branch goes to `c + 1 + sext_8(arg8)` when its condition holds and to the next item when
it does not, and changes nothing but the PC, for a target that is an index. BCC and BCS test V; their polarity is the
spec's decision D35, and the tests of BEQ to BVS are marked there as general knowledge. -/
def Obligations.ConditionalBranchesTestTheirFlag : Prop :=
  ∀ (disp : Byte) (s : State) (target : Nat), (s.pc : Int) + 1 + disp.toInt = (target : Int) →
    exec (.beq disp) s = .next { s with pc := if s.flags.z then target else s.pc + 1 } ∧
    exec (.bne disp) s = .next { s with pc := if s.flags.z then s.pc + 1 else target } ∧
    exec (.bpl disp) s = .next { s with pc := if s.flags.n then s.pc + 1 else target } ∧
    exec (.bmi disp) s = .next { s with pc := if s.flags.n then target else s.pc + 1 } ∧
    exec (.bvc disp) s = .next { s with pc := if s.flags.v then s.pc + 1 else target } ∧
    exec (.bvs disp) s = .next { s with pc := if s.flags.v then target else s.pc + 1 } ∧
    exec (.bcc disp) s = .next { s with pc := if s.flags.v then s.pc + 1 else target } ∧
    exec (.bcs disp) s = .next { s with pc := if s.flags.v then target else s.pc + 1 }

/-! Faults. -/

/-- R212 and R246: a jump, or a conditional branch whose condition holds, with a negative target raises
`BranchTargetNegative` with the target and leaves the PC; one that is not taken never faults, whatever its `arg8`. The
fault is the spec's decision D15. -/
def Obligations.NegativeTargetFaultsWhenTaken : Prop :=
  ∀ (disp : Byte) (s t : State) (target : Int), (s.pc : Int) + 1 + disp.toInt = target → target < 0 →
    t = { s with halted := true, pend := none,
                 lastFault := some { kind := .branchTargetNegative, pc := s.pc, info := .target target } } →
    exec (.jmp disp) s = .next t ∧
    (∀ (c : Cond), exec (branchInstr c disp) s = .next (if condHolds c s.flags then t else { s with pc := s.pc + 1 }))

/-- R82 and R244: a reserved condition raises `MalformedInstruction` with the item's text, whatever the flags, and changes
nothing else. The fault is the spec's decision D5. -/
def Obligations.ReservedConditionFaults : Prop :=
  ∀ (low : BitVec 3) (disp : Byte) (s : State),
    exec (.reserved low disp) s = .next { s with
      halted := true, pend := none,
      lastFault := some { kind := .malformedInstruction, pc := s.pc, info := .text s.textAtPc } }

/-- R83 and R244: an instruction whose register field names no register raises `MalformedInstruction` at its own index and
writes nothing else. A CMP with a pending immediate does not check `arg8`; a CMPI faults at its CMP word. The fault is
the spec's decision D5. -/
def Obligations.InvalidRegisterFaults : Prop :=
  ∀ (i : Instr) (s t : State),
    t = { s with halted := true, pend := none,
                 lastFault := some { kind := .malformedInstruction, pc := s.pc, info := .text s.textAtPc } } →
    (i.wellFormed = false → (∀ rd rs, i ≠ .cmp rd rs) → (∀ rd imm, i ≠ .cmpi rd imm) → exec i s = .next t) ∧
    (∀ (rd : BitVec 4) (rs : Byte), 8 < rd.toNat ∨ (8 < rs.toNat ∧ s.pend = none) → exec (.cmp rd rs) s = .next t) ∧
    (∀ (rd : BitVec 4) (imm : Byte), 8 < rd.toNat →
      exec (.cmpi rd imm) s = .next { s with
        pc := s.pc + 1, halted := true, pend := none,
        lastFault := some { kind := .malformedInstruction, pc := s.pc + 1,
                            info := .text ({ s with pc := s.pc + 1 } : State).textAtPc } })

/-- R13 and R250: a step that ends in a fault has latched `halted`, recorded the index the PC stays at, cleared `pend`, and
left variables, scratch cells, flags, mirrors and the console as they were: every fault comes before its instruction
writes. From a step boundary (R134). That the faults are precise follows from the decisions D5, D15, D16. -/
def Obligations.FaultsArePrecise : Prop :=
  ∀ (s t : State) (record : FaultRecord), s.boundary = true → step s = .next t → t.lastFault = some record →
    t.halted = true ∧ t.pend = none ∧ record.pc = t.pc ∧
    t.vars = s.vars ∧ t.scratch = s.scratch ∧ t.flags = s.flags ∧ t.mirror = s.mirror ∧ t.output = s.output

/-! Micro mode. -/

/-- R138 and R113: the lines NOP, HALT, MOV, MOVI, ADD, ADDI, SUB, SUBI, NEG, AND, OR, XOR, SHL, SHR, and CMP with no
immediate pending, do what their ISA-mode instructions do, on the one ALU, and what the instructions that `lowerLine` gives
them do. R203: the line CMPI is one item; it writes the flags, mirrors and scratch cells of `V - wrap8(imm)` and no variable.
C is the spec's decision D7, that a comparison writes all four flags D8, the scratch cells D10, the mirrors D19 (log entry
5). -/
def Obligations.PrimitiveLinesMatchTheirInstructions : Prop :=
  ∀ (v1 v2 : Var) (n : Int) (s : State),
    (execLine .nop s = exec .nop s ∧ execLine .halt s = exec .halt s ∧
      execLine (.mov v1 v2) s = exec (.mov (rdField v1) (rsField v2)) s ∧
      execLine (.movi v1 n) s = exec (.movi (rdField v1) (byteOfInt n)) s ∧
      execLine (.add v1 v2) s = exec (.add (rdField v1) (rsField v2)) s ∧
      execLine (.addi v1 n) s = exec (.addi (rdField v1) (byteOfInt n)) s ∧
      execLine (.sub v1 v2) s = exec (.sub (rdField v1) (rsField v2)) s ∧
      execLine (.subi v1 n) s = exec (.subi (rdField v1) (byteOfInt n)) s ∧
      execLine (.neg v1) s = exec (.neg (rdField v1)) s ∧
      execLine (.and v1 v2) s = exec (.and (rdField v1) (rsField v2)) s ∧
      execLine (.or v1 v2) s = exec (.or (rdField v1) (rsField v2)) s ∧
      execLine (.xor v1 v2) s = exec (.xor (rdField v1) (rsField v2)) s ∧
      execLine (.shl v1) s = exec (.shl (rdField v1)) s ∧ execLine (.shr v1) s = exec (.shr (rdField v1)) s ∧
      (s.pend = none → execLine (.cmp v1 v2) s = exec (.cmp (rdField v1) (rsField v2)) s)) ∧
    (∀ op : LineOp,
      op ∈ [.nop, .halt, .mov v1 v2, .movi v1 n, .add v1 v2, .addi v1 n, .sub v1 v2, .subi v1 n, .neg v1, .and v1 v2,
        .or v1 v2, .xor v1 v2, .shl v1, .shr v1] →
      execAll (lowerLine op) s = execLine op s) ∧
    (s.pend = none → execAll (lowerLine (.cmp v1 v2)) s = execLine (.cmp v1 v2) s) ∧
    (∀ a b : Byte, s.readVar v1 = a → byteOfInt n = b →
      execLine (.cmpi v1 n) s = .next { s with
        pc := s.pc + 1,
        scratch := { src1 := a, src2 := b, res := byteOfInt (a.toInt - b.toInt), cy := decide (a.toNat < b.toNat) },
        flags := differenceFlags s.params a b, mirror := differenceFlags s.params a b })

/-- R230: `X = literal` loads the wrapped literal, exactly as MOVI, and touches no flag and no scratch cell. -/
def Obligations.AssignLiteralLoadsIt : Prop :=
  ∀ (dst : Var) (n : Int) (s : State),
    execLine (.assign dst (.imm n)) s = .next { s with pc := s.pc + 1, vars := s.vars.set dst (byteOfInt n) } ∧
    (byteOfInt n).toInt = wrap8 n ∧
    execLine (.assign dst (.imm n)) s = execLine (.movi dst n) s

/-- R231: `X = Y` copies the value and leaves it in SRC1; flags and the other scratch cells are unchanged. That the copy
goes through SRC1 is the spec's decision D10. -/
def Obligations.AssignVariableCopiesThroughSrc1 : Prop :=
  ∀ (dst src : Var) (s : State) (b : Byte), s.readVar src = b →
    execLine (.assign dst (.var src)) s = .next { s with
      pc := s.pc + 1, vars := s.vars.set dst b, scratch := { s.scratch with src1 := b } }

/-- R232 and R233: an assignment with an operator writes the wrapped sum or difference of its operands' values before the
line, all four flags and mirrors, and the scratch cells; `X = imm + X` loads SRC1 from `X`. The flags are the spec's
decision D31, C and the scratch cells D7 and D10. -/
def Obligations.AssignSumAndDifference : Prop :=
  ∀ (dst : Var) (p q : Operand) (s : State) (a b : Byte), operandValue p s = a → operandValue q s = b →
    (execLine (.assignAdd dst p q) s = .next { s with
      pc := s.pc + 1, vars := s.vars.set dst (byteOfInt (a.toInt + b.toInt)),
      scratch :=
        { src1 := (match p, q with
                   | .imm _, .var v => if v = dst then b else a
                   | _, _ => a),
          src2 := (match p, q with
                   | .imm _, .var v => if v = dst then a else b
                   | _, _ => b),
          res := byteOfInt (a.toInt + b.toInt), cy := decide (256 ≤ a.toNat + b.toNat) },
      flags := sumFlags a b, mirror := sumFlags a b }) ∧
    (execLine (.assignSub dst p q) s = .next { s with
      pc := s.pc + 1, vars := s.vars.set dst (byteOfInt (a.toInt - b.toInt)),
      scratch := { src1 := a, src2 := b, res := byteOfInt (a.toInt - b.toInt), cy := decide (a.toNat < b.toNat) },
      flags := differenceFlags s.params a b, mirror := differenceFlags s.params a b })

/-- R210 and R211: a branch line goes to its label's index when its condition holds, else to the next line; a label that is
not declared faults whether or not the condition holds. The fault when not taken is the spec's decision D16. -/
def Obligations.BranchLinesGoToTheirLabel : Prop :=
  ∀ (name : Text) (lines : List Text) (labels : List (Text × Nat)) (s : State), s.program = .micro lines labels →
    (∀ k, lookupLabel name labels = some k →
      execLine (.jmp name) s = .next { s with pc := k } ∧
      ∀ c, execLine (.branch c name) s = .next { s with pc := if condHolds c s.flags then k else s.pc + 1 }) ∧
    (∀ t, lookupLabel name labels = none →
      t = { s with halted := true, pend := none,
                   lastFault := some { kind := .unresolvedLabel, pc := s.pc, info := .label name } } →
      execLine (.jmp name) s = .next t ∧ ∀ c, execLine (.branch c name) s = .next t)

/-- R173: PRINT reports the variable's name and value to the console and changes nothing else. That it changes no state is
the spec's decision D22; where the report goes is log entry 7. -/
def Obligations.PrintReportsTheVariable : Prop :=
  ∀ (v : Var) (s : State),
    execLine (.print v) s = .next { s with pc := s.pc + 1, output := s.output ++ [(v, s.readVar v)] }

/-! The step. -/

/-- A step of ISA mode runs the instruction decoded from the words at the PC: `exec` of it, on the state in which its words
have passed through `ir` and `pend` is none, with the phase events of R143 around it and `pend` cleared at the end
(R132, R134, R136, R141). An EXT is executed and the step goes on at the next word (R133). -/
def Obligations.StepRunsTheDecodedInstruction : Prop :=
  ∀ (s : State) (items : List IsaItem) (i : Instr) (w : Word) (ws rest : List Word),
    s.halted = false → s.program = .isa items → (items.drop s.pc).map IsaItem.word = w :: ws →
    decode (w :: ws) = .ok (i, rest) →
    ((∀ imm, i ≠ .ext imm) → (∀ rd imm, i ≠ .cmpi rd imm) →
      step s = onNext (exec i (beginExecute i (s.clearPend.fetchWord s.pc w))) (fun t => .next (finishExecute i t))) ∧
    (∀ rd imm w2 ws2, i = .cmpi rd imm → ws = w2 :: ws2 →
      step s = onNext (exec i (beginExecute i ((s.clearPend.fetchWord s.pc w).fetchWord (s.pc + 1) w2)))
        (fun t => .next (finishExecute i t))) ∧
    (∀ imm, i = .ext imm →
      step s = onNext (exec i (s.clearPend.fetchWord s.pc w)) (isaLoop (items.length - (s.pc + 1))))

/-- A step of micro mode parses the line at the PC and executes what it stands for, with the phase events of R143 around it
(R135, R137, R142). -/
def Obligations.StepRunsTheParsedLine : Prop :=
  ∀ (s : State) (lines : List Text) (labels : List (Text × Nat)) (line : Text),
    s.halted = false → s.program = .micro lines labels → lines[s.pc]? = some line →
    step s = onNext (execLine (parseLine line) ((s.fetchLine line).emit .execute))
      (fun t => .next (t.clearPend.emit .writeback))

/-- The step of ISA mode is the pseudo-code of R141, transcribed word by word in SpecLoop.lean: the CMPI pair run as one
instruction is the same as the EXT prefix and the CMP word that reads `pend`. -/
def Obligations.IsaStepIsThePseudoCode : Prop :=
  ∀ s : State, s.halted = false → s.mode = .isa → step s = specCycle s

/-- R134: an EXT whose next word is not a CMP has no effect beyond taking one item of the step: the immediate is dropped.
The spec marks this as its decision D17. -/
def Obligations.ExtWithoutCompareIsDropped : Prop :=
  ∀ (s : State) (items : List IsaItem) (imm : Byte) (w : Word) (ws rest : List Word),
    s.halted = false → s.program = .isa items → (items.drop s.pc).map IsaItem.word = w :: ws →
    decode (w :: ws) = .ok (.ext imm, rest) → step s = step (s.fetchWord s.pc w).advance

/-- R131 and R242: a fetch past the end halts with no fault and touches nothing but `halted` and `pend`, in both modes. That
the PC keeps its value is the spec's decision D13. -/
def Obligations.FetchPastEndHalts : Prop :=
  ∀ s : State, s.halted = false → s.programLength ≤ s.pc → step s = .next { s with halted := true, pend := none }

/-- A CPU that runs always has a next state: no instruction, line or word is refused, and the faults of R241 are next states
(R250). A halted CPU has none, and `step()` on it returns false and changes nothing (R130); giving it no successor is the
spec's decision D18. -/
def Obligations.RunningCpuAlwaysSteps : Prop :=
  ∀ s : State,
    (s.halted = false → ∃ t, step s = .next t ∧ stepOp s = (!t.halted, t)) ∧
    (s.halted = true → step s = .fault .halted ∧ stepOp s = (false, s))

/-- R134 and R250: every step leaves a step boundary: no pending immediate, and a recorded fault only on a halted CPU. From
every state, reachable or not, whose recorded fault is on a halted CPU. The life of `pend` is the spec's decision D17. -/
def Obligations.EveryStepEndsAtABoundary : Prop :=
  ∀ s t : State, (s.lastFault.isNone || s.halted) = true → step s = .next t → t.boundary = true

/-- R30: the CPU's flags and their mirrors in the store agree after every step if they agreed before. The mirrors are the
spec's decision D19. -/
def Obligations.EveryStepKeepsTheMirrors : Prop :=
  ∀ s t : State, s.mirrored = true → step s = .next t → t.mirrored = true

/-- The PC never goes further than 127 past the end of the program (R26, R222, spec/92 D14): the invariant that makes a
sized PC safe. With a micro-mode program's labels in range, as every load leaves them. -/
def Obligations.EveryStepKeepsThePcInReach : Prop :=
  ∀ s t : State, s.labelsInRange = true → s.pcInReach = true → step s = .next t →
    t.labelsInRange = true ∧ t.pcInReach = true

/-- No step changes the program (R52, R63), the labels (R37), the mode (R36) or the parameters. That the mode is fixed is the
spec's decision D32 (log entry 5), that the parameters stand in State and stay is log entry 2. -/
def Obligations.NoStepChangesTheProgram : Prop :=
  ∀ s t : State, step s = .next t → t.program = s.program ∧ t.params = s.params

/-- R29 and R30: no instruction and no line reads the flag C or a mirror cell: two runs that differ only there differ only
there after a step. That the mirrors are never read back is the spec's decision D19. -/
def Obligations.NothingReadsCarryOrMirrors : Prop :=
  ∀ (s t : State) (b : Bool) (m : Flags), step s = .next t →
    ∃ u, step { s with flags := { s.flags with c := b }, mirror := m } = .next u ∧
      { u with flags := { u.flags with c := t.flags.c }, mirror := t.mirror } = t

/-- The power-on and reset state (R31, R44, R271, R274). A new CPU of either mode has no program and no labels, the PC and
`ir` at 0, flags and mirrors false, no pending immediate and no fault record, is not halted, every one of the 38 cells 0, and its
first step halts by fetch past end; the invariants hold there, and `reset()` leaves it as it is. `reset()` of any state
re-establishes R271 and keeps the cells. The values are the spec's decisions D11 (log entry 4), D12, D17, D20, D29, D33 (log
entry 5); that `State.reset` is ISA mode with the default parameters is log entries 1 and 2, the empty logs log entry 7. -/
def Obligations.ResetEstablishesTheResetState : Prop :=
  State.reset = State.powerOn Params.default .isa ∧
  (∀ p : Params, (State.powerOn p .isa).program = .isa [] ∧ (State.powerOn p .micro).program = .micro [] []) ∧
  (∀ (p : Params) (m : Mode) (s : State), s = State.powerOn p m →
    s.mode = m ∧ s.params = p ∧ s.pc = 0 ∧ s.ir = 0#16 ∧ s.flags = Flags.clear ∧ s.mirror = Flags.clear ∧
    s.halted = false ∧ s.pend = none ∧ s.lastFault = none ∧ s.vars = Vars.zero ∧ s.scratch = Scratch.zero ∧
    (∀ c, s.cellGet c = 0) ∧ s.events = [] ∧ s.output = [] ∧
    s.boundary = true ∧ s.mirrored = true ∧ s.pcInReach = true ∧ s.labelsInRange = true ∧
    s.resetRegisters = s ∧ step s = .next { s with halted := true }) ∧
  (∀ s : State, s.resetRegisters = { s with
    pc := 0, flags := Flags.clear, mirror := Flags.clear, halted := false, pend := none, ir := 0, lastFault := none })

/-! The toolchain. -/

/-- R94: lines among which no IF line stands pass through the preprocessor unchanged, an ELSE or END among them too (the
latter is the spec's decision D27). -/
def Obligations.PreprocessorPassesPlainLines : Prop :=
  ∀ lines : List Text, (∀ line ∈ lines, parseIf line = none) → preprocess lines = lines

/-- R83 and R82: whatever line the assembler lowers, its instructions are well formed, and the decoder reads back from its
words exactly the instructions of the tables R113 and R114. -/
def Obligations.LoweredWordsAreWellFormed : Prop :=
  ∀ op : LineOp,
    (∀ i ∈ lowerLine op, i.wellFormed = true) ∧
    (∀ i is rest, lowerLine op = i :: is → decode (lowerWords op ++ rest) = .ok (i, is.flatMap encode ++ rest))

/-- R113: the words of every primitive line, row by row, from the ids of its variables and the pattern of its immediate; a
JMP or branch line's word has offset 0 until pass 2 puts it in, and it alone is a site for pass 2, under the label it names
(R111). PRINT and an unparseable line become NOP and carry the line as text. Ids and bit positions are the spec's decisions
D1 and D2 (log entry 3), PRINT its decision D22 (log entry 5). -/
def Obligations.PrimitiveLinesLowerToTheirWords : Prop :=
  ∀ (v1 v2 : Var) (n : Int) (line name : Text),
    lineWords .nop = [0x0000] ∧ lineWords .halt = [0x1000] ∧
    lineWords (.mov v1 v2) = [0x2000 + idOfVar v1 * 256 + idOfVar v2] ∧
    lineWords (.movi v1 n) = [0x3000 + idOfVar v1 * 256 + (u8 n).toNat] ∧
    lineWords (.add v1 v2) = [0x4000 + idOfVar v1 * 256 + idOfVar v2] ∧
    lineWords (.addi v1 n) = [0x5000 + idOfVar v1 * 256 + (u8 n).toNat] ∧
    lineWords (.sub v1 v2) = [0x6000 + idOfVar v1 * 256 + idOfVar v2] ∧
    lineWords (.subi v1 n) = [0x7000 + idOfVar v1 * 256 + (u8 n).toNat] ∧
    lineWords (.and v1 v2) = [0x8000 + idOfVar v1 * 256 + idOfVar v2] ∧
    lineWords (.or v1 v2) = [0x9000 + idOfVar v1 * 256 + idOfVar v2] ∧
    lineWords (.xor v1 v2) = [0xA000 + idOfVar v1 * 256 + idOfVar v2] ∧
    lineWords (.shl v1) = [0xB000 + idOfVar v1 * 256] ∧ lineWords (.shr v1) = [0xB001 + idOfVar v1 * 256] ∧
    lineWords (.neg v1) = [0xC000 + idOfVar v1 * 256] ∧
    lineWords (.cmp v1 v2) = [0xD000 + idOfVar v1 * 256 + idOfVar v2] ∧
    lineWords (.cmpi v1 n) = [0x0E00 + (u8 n).toNat, 0xD000 + idOfVar v1 * 256] ∧
    lineWords (.jmp name) = [0xE000] ∧
    [Cond.eq, .ne, .pl, .mi, .vc, .vs, .cc, .cs].map (fun c => lineWords (.branch c name)) =
      (List.range 8).map (fun code => [0xF000 + code * 256]) ∧
    lineWords (.label name) = [] ∧
    (pendingItems line (.print v1)).map (fun item => (item.word.toNat, item.text)) = [(0x0000, line)] ∧
    (pendingItems line (.unparseable line)).map (fun item => (item.word.toNat, item.text)) = [(0x0000, line)] ∧
    (∀ op, (∀ item ∈ pendingItems line op, item.site = op.site) ∧
      (op.site = some name ↔ op = .jmp name ∨ ∃ c, op = .branch c name))

/-- R114: the instructions an assignment line is lowered to leave every variable as the micro-mode line does, and Z and N; all
the flags too, but for `X = A - X` with `A` not zero. The sequences are the spec's decision D26. -/
def Obligations.LoweredAssignmentsComputeTheSameValue : Prop :=
  ∀ (dst : Var) (a b : Operand) (s : State),
    (∃ t u, execAll (lowerLine (.assign dst a)) s = .next t ∧ execLine (.assign dst a) s = .next u ∧
      t.vars = u.vars ∧ t.flags = u.flags) ∧
    (∃ t u, execAll (lowerLine (.assignAdd dst a b)) s = .next t ∧ execLine (.assignAdd dst a b) s = .next u ∧
      t.vars = u.vars ∧ t.flags = u.flags) ∧
    (∃ t u, execAll (lowerLine (.assignSub dst a b)) s = .next t ∧ execLine (.assignSub dst a b) s = .next u ∧
      t.vars = u.vars ∧ t.flags.z = u.flags.z ∧ t.flags.n = u.flags.n ∧
      (a = .var dst ∨ b ≠ .var dst ∨ isZeroImm a = true → t.flags = u.flags))

/-- R212 and R115: every JMP and branch word of an assembled program has its target between 0 and the program's length. -/
def Obligations.AssembledBranchesStayInTheProgram : Prop :=
  ∀ (strict : Bool) (lines : List Text) (items : List IsaItem), assemble strict lines = .ok items →
    ∀ (c : Nat) (item : IsaItem), items[c]? = some item → (op4 item.word = 0xE#4 ∨ op4 item.word = 0xF#4) →
      0 ≤ (c : Int) + 1 + (arg8 item.word).toInt ∧ (c : Int) + 1 + (arg8 item.word).toInt ≤ (items.length : Int)

/-- R115 and R112: pass 2 puts the offset of every site into its argument byte and leaves every other item as it is; a jump's
word has its `dst4` cleared. A site whose label is not declared, or whose offset is outside [-128, 127], makes it fail: with
`UndefinedLabel(name)` or `BranchOutOfRange(index, offset)` of that site where the items before it give no error. Which of
several errors is reported is log entry 12. A label at the very end is legal: the target is any index of the table. -/
def Obligations.PassTwoPutsEveryOffsetIn : Prop :=
  ∀ (labels : List (Text × Nat)) (items : List PendingItem),
    (∀ out, pass2 labels 0 items = .ok out → out.length = items.length ∧
      ∀ (c : Nat) (item : PendingItem) (fixed : IsaItem), items[c]? = some item → out[c]? = some fixed →
        fixed.text = item.text ∧ (item.site = none → fixed.word = item.word) ∧
        (∀ name, item.site = some name → ∃ target, lookupLabel name labels = some target ∧
          -128 ≤ branchOffset target c ∧ branchOffset target c ≤ 127 ∧ op4 fixed.word = op4 item.word ∧
          dst4 fixed.word = dst4 item.word ∧ arg8 fixed.word = byteOfInt (branchOffset target c))) ∧
    (∀ (c : Nat) (item : PendingItem) (name : Text), items[c]? = some item → item.site = some name →
      ((∀ target, lookupLabel name labels = some target →
          branchOffset target c < -128 ∨ 127 < branchOffset target c) →
        ∃ e, pass2 labels 0 items = .error e) ∧
      (∀ before, pass2 labels 0 (items.take c) = .ok before →
        (lookupLabel name labels = none → pass2 labels 0 items = .error (.undefinedLabel name)) ∧
        (∀ target, lookupLabel name labels = some target →
          branchOffset target c < -128 ∨ 127 < branchOffset target c →
          pass2 labels 0 items = .error (.branchOutOfRange c (branchOffset target c))))) ∧
    (∀ target c : Nat, branchOffset target c = (target : Int) - ((c : Int) + 1)) ∧
    (∀ name, lowerWords (.jmp name) = [mkWord 0xE 0x0 0x00])

/-- R270 and R271: a load installs the program of its mode, establishes the reset state, keeps the cells and leaves the
labels in range (R100); a load error leaves the CPU exactly as it was. The reset values are the spec's decisions D11, D12,
D17, D20, D29, the failed load its decision D28. -/
def Obligations.LoadInstallsAProgramOrChangesNothing : Prop :=
  ∀ (lines : List Text) (s : State),
    (∀ t, s.loadProgram lines = .ok t →
      buildProgram s.params s.mode lines = .ok t.program ∧ t.mode = s.mode ∧ t.labelsInRange = true ∧
      t = { s with program := t.program, pc := 0, flags := Flags.clear, mirror := Flags.clear, halted := false,
                   pend := none, ir := 0, lastFault := none }) ∧
    (∀ e, s.loadProgram lines = .error e → hostMove (.load lines) s = s)
end

