-- ==== Sys2Proof/Laws/Alu.lean ====
section
/-!
SUPPORT. What the bit-serial ALU computes, said once: the ripple of one-bit tables equals native wrap-around
arithmetic (R166), with the end state of the scratch cells (R164) and the flags. Provers cite `State.alu_eq`,
`State.aluTo_eq` and `State.copyThroughSrc1_eq` instead of unfolding the micro-ops.
-/

namespace Sys2Proof.Machine

/-! Writing bits. -/

theorem getLsbD_setBit (p : Byte) (k : Fin 8) (b : Bool) (i : Nat) :
    (setBit p k b).getLsbD i = if i = k.val then b else p.getLsbD i := by
  obtain ⟨k, hk⟩ := k
  by_cases hi : i < 8
  · interval_cases k <;> interval_cases i <;> cases b <;> simp [setBit]
  · have hik : i ≠ k := by omega
    cases b <;> simp [setBit, hik, BitVec.getLsbD_of_ge _ _ (not_lt.mp hi)]

/-- Writing all eight bits of a byte, from bit 0 up, leaves nothing of the old value. -/
theorem foldl_setBit (p v : Byte) : bitOrder.foldl (fun r k => setBit r k (v.getLsbD k)) p = v := by
  refine BitVec.eq_of_getLsbD_eq fun i hi => ?_
  simp only [bitOrder, List.foldl_cons, List.foldl_nil, getLsbD_setBit]
  interval_cases i <;> rfl

theorem Scratch.set_get (r : ScratchReg) (b : Byte) (sc : Scratch) : (sc.set r b).get r = b := by
  cases r <;> rfl

theorem Scratch.set_set (r : ScratchReg) (b b' : Byte) (sc : Scratch) : (sc.set r b).set r b' = sc.set r b' := by
  cases r <;> rfl

/-- `unpack(S, v)` leaves the pattern of `v` in `S` (R152). -/
theorem runMicro_unpackOps (r : ScratchReg) (v : Byte) (s : State) :
    s.runMicro (unpackOps r v) = { s with scratch := s.scratch.set r v } := by
  have h : ∀ (ks : List (Fin 8)) (s : State), (ks.map (MicroOp.unpackBit r v)).foldl State.microOp s =
      { s with scratch := s.scratch.set r (ks.foldl (fun p k => setBit p k (v.getLsbD k)) (s.scratch.get r)) } := by
    intro ks
    induction ks with
    | nil => intro s; cases r <;> rfl
    | cons k ks ih =>
      intro s
      simp only [List.map_cons, List.foldl_cons, ih, State.microOp, Scratch.setCell, Scratch.set_set, Scratch.set_get]
  rw [State.runMicro, unpackOps, h, foldl_setBit]

theorem runMicro_append (xs ys : List MicroOp) (s : State) :
    s.runMicro (xs ++ ys) = (s.runMicro xs).runMicro ys := by
  simp only [State.runMicro, List.foldl_append]

/-! The tables as Boolean functions. -/

theorem fullAdder_fst (a b c : Bool) : (fullAdder a b c).1 = (a ^^ (b ^^ c)) := by
  cases a <;> cases b <;> cases c <;> rfl

theorem fullAdder_snd (a b c : Bool) : (fullAdder a b c).2 = a.atLeastTwo b c := by
  cases a <;> cases b <;> cases c <;> rfl

theorem fullSubtractor_fst (a b c : Bool) : (fullSubtractor a b c).1 = (a ^^ (!b ^^ !c)) := by
  cases a <;> cases b <;> cases c <;> rfl

theorem fullSubtractor_snd (a b c : Bool) : (fullSubtractor a b c).2 = !(a.atLeastTwo (!b) (!c)) := by
  cases a <;> cases b <;> cases c <;> rfl

theorem andTable_eq (a b : Bool) : andTable a b = (a && b) := by
  cases a <;> cases b <;> rfl

theorem orTable_eq (a b : Bool) : orTable a b = (a || b) := by
  cases a <;> cases b <;> rfl

theorem xorTable_eq (a b : Bool) : xorTable a b = (a ^^ b) := by
  cases a <;> cases b <;> rfl

/-- Bit `i` of a difference, through the borrow chain. -/
theorem getLsbD_sub_borrow (a b : Byte) (i : Nat) (hi : i < 8) :
    (a - b).getLsbD i = (a.getLsbD i ^^ (!b.getLsbD i ^^ BitVec.carry i a (~~~b) true)) := by
  have h := BitVec.getLsbD_add_add_bool hi a (~~~b) true
  have e : a + ~~~b + BitVec.setWidth 8 (BitVec.ofBool true) = a - b := by
    rw [BitVec.sub_eq_add_neg, BitVec.neg_eq_not_add, BitVec.add_assoc]; rfl
  rw [e] at h
  simpa [hi] using h

/-- The last borrow is the unsigned comparison (R157). -/
theorem carry_not_eq_borrow (a b : Byte) : (!BitVec.carry 8 a (~~~b) true) = decide (a.toNat < b.toNat) := by
  have ha := a.isLt
  have hb := b.isLt
  simp only [BitVec.carry, BitVec.toNat_not, Bool.toNat_true]
  rw [← decide_not, decide_eq_decide]
  omega

/-- The last carry is the unsigned overflow (R156). -/
theorem carry_eq_overflow (a b : Byte) : BitVec.carry 8 a b false = decide (256 ≤ a.toNat + b.toNat) := by
  have ha := a.isLt
  have hb := b.isLt
  simp only [BitVec.carry, Bool.toNat_false]
  rw [decide_eq_decide]
  omega

/-! The chain of bits. -/

/-- What the ALU returns, natively (R156, R157, R162, R163, R166). -/
def nativeResult (f : AluFn) (a b : Byte) : Byte :=
  match f with
  | .add => a + b
  | .sub => a - b
  | .and => a &&& b
  | .or => a ||| b
  | .xor => a ^^^ b
  | .shl => a <<< 1
  | .shr => a.sshiftRight 1

/-- What `CY` ends as (R164). -/
def nativeCy (f : AluFn) (a b : Byte) (cy : Bool) : Bool :=
  match f with
  | .add => decide (256 ≤ a.toNat + b.toNat)
  | .sub => decide (a.toNat < b.toNat)
  | .and => cy
  | .or => cy
  | .xor => cy
  | .shl => a.getLsbD 7
  | .shr => a.getLsbD 0

/-- What the scratch cells end as (R164). -/
def nativeScratch (f : AluFn) (a b : Byte) (sc : Scratch) : Scratch :=
  { src1 := a, src2 := if f.isBinary then b else sc.src2, res := nativeResult f a b, cy := nativeCy f a b sc.cy }

/-- `CY` before bit `k` is computed. -/
def cyBefore (f : AluFn) (a b : Byte) (cy : Bool) (k : Nat) : Bool :=
  match f with
  | .add => BitVec.carry k a b false
  | .sub => !BitVec.carry k a (~~~b) true
  | .and => cy
  | .or => cy
  | .xor => cy
  | .shl => a.getLsbD 7
  | .shr => a.getLsbD 0

theorem cyBefore_eight (f : AluFn) (a b : Byte) (cy : Bool) : cyBefore f a b cy 8 = nativeCy f a b cy := by
  cases f <;> first
    | rfl
    | exact carry_eq_overflow a b
    | exact carry_not_eq_borrow a b

/-- One bit of the chain: with the right `CY` it writes the native result's bit and the next `CY`. -/
theorem resultBit_eq (f : AluFn) (a b r : Byte) (cy : Bool) (k : Fin 8) :
    resultBit f k { src1 := a, src2 := b, res := r, cy := cyBefore f a b cy k } = (nativeResult f a b).getLsbD k := by
  obtain ⟨k, hk⟩ := k
  cases f
  · simpa [resultBit, Scratch.getCell, Scratch.get, fullAdder_fst, cyBefore, nativeResult] using
      (BitVec.getLsbD_add hk a b).symm
  · simpa [resultBit, Scratch.getCell, Scratch.get, fullSubtractor_fst, cyBefore, nativeResult] using
      (getLsbD_sub_borrow a b k hk).symm
  · simp [resultBit, Scratch.getCell, Scratch.get, andTable_eq, nativeResult]
  · simp [resultBit, Scratch.getCell, Scratch.get, orTable_eq, nativeResult]
  · simp [resultBit, Scratch.getCell, Scratch.get, xorTable_eq, nativeResult]
  · interval_cases k <;> simp [resultBit, nativeResult]
  · interval_cases k <;> simp [resultBit, nativeResult, BitVec.getElem_sshiftRight, BitVec.msb_eq_getLsbD_last]

theorem chainBit_eq (f : AluFn) (a b r : Byte) (cy : Bool) (k : Fin 8) :
    chainBit f k { src1 := a, src2 := b, res := r, cy := cyBefore f a b cy k } = cyBefore f a b cy (k + 1) := by
  obtain ⟨k, hk⟩ := k
  cases f <;> try rfl
  · simp [chainBit, Scratch.getCell, Scratch.get, fullAdder_snd, cyBefore, BitVec.carry_succ]
  · simp [chainBit, Scratch.getCell, Scratch.get, fullSubtractor_snd, cyBefore, BitVec.carry_succ, hk]

/-- One position of step 4 of R165, on the scratch cells. -/
def chainStep (f : AluFn) (sc : Scratch) (k : Fin 8) : Scratch :=
  let sc1 := sc.setCell .res k (resultBit f k sc)
  { sc1 with cy := chainBit f k sc1 }

theorem foldl_chain (f : AluFn) (ks : List (Fin 8)) (s : State) :
    (ks.flatMap (fun k => [MicroOp.writeRes f k, MicroOp.writeCy f k])).foldl State.microOp s =
      { s with scratch := ks.foldl (chainStep f) s.scratch } := by
  induction ks generalizing s with
  | nil => rfl
  | cons k ks ih =>
    simp only [List.flatMap_cons, List.foldl_append, List.foldl_cons, List.foldl_nil, ih]
    rfl

theorem foldl_noChain (f : AluFn) (hf : ∀ k sc, chainBit f k sc = sc.cy) (ks : List (Fin 8)) (s : State) :
    (ks.map (MicroOp.writeRes f)).foldl State.microOp s = { s with scratch := ks.foldl (chainStep f) s.scratch } := by
  induction ks generalizing s with
  | nil => rfl
  | cons k ks ih => simp only [List.map_cons, List.foldl_cons, ih, State.microOp, chainStep, hf]

theorem runMicro_resultOps (f : AluFn) (s : State) :
    s.runMicro (resultOps f) = { s with scratch := bitOrder.foldl (chainStep f) s.scratch } := by
  cases f
  · exact foldl_chain _ _ s
  · exact foldl_chain _ _ s
  all_goals exact foldl_noChain _ (fun _ _ => rfl) _ s

theorem chainStep_eq (f : AluFn) (a b r : Byte) (cy : Bool) (k : Fin 8) (n : Nat) (hn : k.val = n) :
    chainStep f { src1 := a, src2 := b, res := r, cy := cyBefore f a b cy n } k =
      { src1 := a, src2 := b, res := setBit r k ((nativeResult f a b).getLsbD n), cy := cyBefore f a b cy (n + 1) } := by
  subst hn
  have h := resultBit_eq f a b r cy k
  simp only [chainStep, h]
  simp only [Scratch.setCell, Scratch.set, Scratch.get, chainBit_eq]

theorem foldl_chainStep (f : AluFn) (a b r : Byte) (cy : Bool) :
    bitOrder.foldl (chainStep f) { src1 := a, src2 := b, res := r, cy := cyBefore f a b cy 0 } =
      { src1 := a, src2 := b, res := nativeResult f a b, cy := nativeCy f a b cy } := by
  have hall := foldl_setBit r (nativeResult f a b)
  simp only [bitOrder, List.foldl_cons, List.foldl_nil] at hall ⊢
  simp only [chainStep_eq f a b _ cy 0 0 rfl, chainStep_eq f a b _ cy 1 1 rfl, chainStep_eq f a b _ cy 2 2 rfl,
    chainStep_eq f a b _ cy 3 3 rfl, chainStep_eq f a b _ cy 4 4 rfl, chainStep_eq f a b _ cy 5 5 rfl,
    chainStep_eq f a b _ cy 6 6 rfl, chainStep_eq f a b _ cy 7 7 rfl, Nat.reduceAdd, ← cyBefore_eight f a b cy]
  exact congrArg (fun v => ({ src1 := a, src2 := b, res := v, cy := cyBefore f a b cy 8 } : Scratch)) hall

/-! The ALU functions. -/

theorem initialCy_eq (f : AluFn) (a b r : Byte) (cy : Bool) :
    cyBefore f a b cy 0 = if f.isLogic then cy else initialCy f { src1 := a, src2 := b, res := r, cy := cy } := by
  cases f <;> simp [cyBefore, initialCy, AluFn.isLogic, BitVec.carry, Nat.mod_one]

theorem runMicro_operandOps (f : AluFn) (a b : Byte) (s : State) :
    s.runMicro (operandOps f a b) =
      { s with scratch :=
          { src1 := a, src2 := if f.isBinary then b else s.scratch.src2, res := s.scratch.res,
            cy := cyBefore f a (if f.isBinary then b else s.scratch.src2) s.scratch.cy 0 } } := by
  simp only [operandOps, runMicro_append, runMicro_unpackOps, initialCy_eq f _ _ s.scratch.res]
  cases f <;>
    simp only [AluFn.isBinary, AluFn.isLogic, if_true, Bool.false_eq_true, if_false, runMicro_unpackOps] <;> rfl

theorem nativeResult_unary (f : AluFn) (a b c : Byte) : nativeResult f a (if f.isBinary then b else c) = nativeResult f a b := by
  cases f <;> rfl

theorem nativeCy_unary (f : AluFn) (a b c : Byte) (cy : Bool) :
    nativeCy f a (if f.isBinary then b else c) cy = nativeCy f a b cy := by
  cases f <;> rfl

/-- The operands and the result bits of an ALU function, before its flags: only the scratch cells change (R164). -/
theorem runMicro_scratch (f : AluFn) (a b : Byte) (s : State) :
    s.runMicro (operandOps f a b ++ resultOps f) = { s with scratch := nativeScratch f a b s.scratch } := by
  rw [runMicro_append, runMicro_operandOps, runMicro_resultOps]
  simp only [foldl_chainStep, nativeScratch, nativeResult_unary, nativeCy_unary]

/-- The four flags after an ALU function, from the scratch cells it leaves (R158 to R162). -/
def nativeFlags (p : Params) (f : AluFn) (sc : Scratch) (old : Flags) : Flags :=
  { z := flagZ sc, n := flagN sc,
    v := if f.isLogic && p.logicVC == .unchanged then old.v else flagV f sc,
    c := if f.isLogic && p.logicVC == .unchanged then old.c else flagC p f sc }

theorem runMicro_flagOps (f : AluFn) (s : State) :
    s.runMicro (flagOps s.params f) =
      { s with flags := nativeFlags s.params f s.scratch s.flags, mirror := nativeFlags s.params f s.scratch s.mirror } := by
  cases h : f.isLogic && s.params.logicVC == .unchanged <;> 
    simp only [flagOps, flagsWritten, nativeFlags, h, if_true, Bool.false_eq_true, if_false, List.flatMap_cons,
      List.flatMap_nil, List.cons_append, List.nil_append, State.runMicro, List.foldl_cons, List.foldl_nil,
      State.microOp, State.writeFlag, State.writeMirror, Flags.set, Flags.get, flagValue]

/-- The ALU, said once: result, scratch cells, flags and mirrors, and nothing else (R156 to R166). -/
theorem State.alu_eq (f : AluFn) (a b : Byte) (s : State) :
    s.alu f a b =
      { s with scratch := nativeScratch f a b s.scratch,
               flags := nativeFlags s.params f (nativeScratch f a b s.scratch) s.flags,
               mirror := nativeFlags s.params f (nativeScratch f a b s.scratch) s.mirror } := by
  have h := runMicro_flagOps f { s with scratch := nativeScratch f a b s.scratch }
  rw [State.alu, aluOps, runMicro_append, runMicro_scratch]
  exact h

/-- An ALU instruction with a destination, said once. -/
theorem State.aluTo_eq (f : AluFn) (a b : Byte) (dst : Var) (s : State) :
    s.aluTo f a b dst =
      { s with vars := s.vars.set dst (nativeResult f a b),
               scratch := nativeScratch f a b s.scratch,
               flags := nativeFlags s.params f (nativeScratch f a b s.scratch) s.flags,
               mirror := nativeFlags s.params f (nativeScratch f a b s.scratch) s.mirror } := by
  have h := State.alu_eq f a b s
  rw [State.alu] at h
  rw [State.aluTo, runMicro_append, h]
  rfl

/-- The copy of R231, said once: `SRC1` and the destination. -/
theorem State.copyThroughSrc1_eq (v : Byte) (dst : Var) (s : State) :
    s.copyThroughSrc1 v dst = { s with vars := s.vars.set dst v, scratch := { s.scratch with src1 := v } } := by
  rw [State.copyThroughSrc1, runMicro_append, runMicro_unpackOps]
  rfl

end Sys2Proof.Machine
end

