-- ==== Sys2Proof/Laws/Decode.lean ====
section
/-!
SUPPORT. The fields of a word, said once (R71): a word is its three fields, and decoding a built word is decoding its
fields.
-/

namespace Sys2Proof

theorem op4_mkWord (op dst : BitVec 4) (arg : Byte) : op4 (mkWord op dst arg) = op := by
  refine BitVec.eq_of_getLsbD_eq fun i hi => ?_
  interval_cases i <;> simp only [op4, mkWord, BitVec.getLsbD_extractLsb', BitVec.getLsbD_append] <;> rfl

theorem dst4_mkWord (op dst : BitVec 4) (arg : Byte) : dst4 (mkWord op dst arg) = dst := by
  refine BitVec.eq_of_getLsbD_eq fun i hi => ?_
  interval_cases i <;> simp only [dst4, mkWord, BitVec.getLsbD_extractLsb', BitVec.getLsbD_append] <;> rfl

theorem arg8_mkWord (op dst : BitVec 4) (arg : Byte) : arg8 (mkWord op dst arg) = arg := by
  refine BitVec.eq_of_getLsbD_eq fun i hi => ?_
  interval_cases i <;> simp only [arg8, mkWord, BitVec.getLsbD_extractLsb', BitVec.getLsbD_append] <;> rfl

/-- A word is the packing of its fields (R71). -/
theorem mkWord_fields (w : Word) : mkWord (op4 w) (dst4 w) (arg8 w) = w := by
  refine BitVec.eq_of_getLsbD_eq fun i hi => ?_
  interval_cases i <;>
    simp only [op4, dst4, arg8, mkWord, BitVec.getLsbD_extractLsb', BitVec.getLsbD_append] <;> rfl

/-- The number of a word (R71). -/
theorem mkWord_toNat (op dst : BitVec 4) (arg : Byte) :
    (mkWord op dst arg).toNat = op.toNat * 4096 + dst.toNat * 256 + arg.toNat := by
  have hd := dst.isLt
  have ha := arg.isLt
  simp only [mkWord, BitVec.toNat_append]
  rw [← Nat.shiftLeft_add_eq_or_of_lt hd, ← Nat.shiftLeft_add_eq_or_of_lt ha]
  simp only [Nat.shiftLeft_eq]
  omega

theorem decodeWord_mkWord (op dst : BitVec 4) (arg : Byte) : decodeWord (mkWord op dst arg) = decodeFields op dst arg := by
  simp only [decodeWord, op4_mkWord, dst4_mkWord, arg8_mkWord]

/-- A two-word instruction is the CMPI pair, an EXT word and a CMP word (R79). -/
theorem pairWith_cmpi {i : Instr} {following : Option Instr} {rd : BitVec 4} {imm : Byte}
    (h : pairWith i following = .cmpi rd imm) (hi : ∀ rd' imm', i ≠ .cmpi rd' imm') :
    i = .ext imm ∧ ∃ rs, following = some (.cmp rd rs) := by
  unfold pairWith at h
  split at h
  · cases h
    exact ⟨rfl, _, rfl⟩
  · exact absurd h (hi rd imm)

/-- No word alone is a CMPI (R79). -/
theorem decodeWord_ne_cmpi (w : Word) (rd : BitVec 4) (imm : Byte) : decodeWord w ≠ .cmpi rd imm := by
  unfold decodeWord decodeFields
  split <;> try split
  all_goals first
    | exact Instr.noConfusion
    | (unfold decodeBranch; split <;> exact Instr.noConfusion)

/-- A word decodes to EXT exactly when its opcode is 0 and its `dst4` the sentinel (R76). -/
theorem decodeWord_ext (w : Word) (imm : Byte) :
    decodeWord w = .ext imm ↔ op4 w = 0#4 ∧ dst4 w = 0xE#4 ∧ arg8 w = imm := by
  constructor
  · intro h
    unfold decodeWord decodeFields at h
    split at h
    · split at h
      · cases h
        exact ⟨BitVec.eq_of_toNat_eq (by assumption), by assumption, rfl⟩
      · cases h
    all_goals first
      | cases h
      | (split at h <;> cases h)
      | (unfold decodeBranch at h; split at h <;> cases h)
  · rintro ⟨h0, h1, rfl⟩
    simp [decodeWord, h0, h1, decodeFields]

/-- `decode` of a list that has a word. -/
theorem decode_cons (w : Word) (ws : List Word) :
    decode (w :: ws) = .ok (pairWith (decodeWord w) (ws.head?.map decodeWord),
      ws.drop ((pairWith (decodeWord w) (ws.head?.map decodeWord)).size - 1)) := rfl

end Sys2Proof
end

