-- ==== Sys2Proof/Laws/State.lean ====
section
/-!
SUPPORT. Beside State: one lemma per field per update, true by rfl, so that no proof unfolds a record update; and the
laws of the variables, the flags and the cells of the store (R55).
-/

namespace Sys2Proof.Machine

/-! Fields after `advance`. -/

@[simp] theorem State.advance_params (s : State) : s.advance.params = s.params := rfl
@[simp] theorem State.advance_program (s : State) : s.advance.program = s.program := rfl
@[simp] theorem State.advance_pc (s : State) : s.advance.pc = s.pc + 1 := rfl
@[simp] theorem State.advance_flags (s : State) : s.advance.flags = s.flags := rfl
@[simp] theorem State.advance_halted (s : State) : s.advance.halted = s.halted := rfl
@[simp] theorem State.advance_pend (s : State) : s.advance.pend = s.pend := rfl
@[simp] theorem State.advance_ir (s : State) : s.advance.ir = s.ir := rfl
@[simp] theorem State.advance_lastFault (s : State) : s.advance.lastFault = s.lastFault := rfl
@[simp] theorem State.advance_vars (s : State) : s.advance.vars = s.vars := rfl
@[simp] theorem State.advance_scratch (s : State) : s.advance.scratch = s.scratch := rfl
@[simp] theorem State.advance_mirror (s : State) : s.advance.mirror = s.mirror := rfl
@[simp] theorem State.advance_events (s : State) : s.advance.events = s.events := rfl
@[simp] theorem State.advance_output (s : State) : s.advance.output = s.output := rfl

/-! Fields after `writeVar`. -/

@[simp] theorem State.writeVar_params (v : Var) (b : Byte) (s : State) : (s.writeVar v b).params = s.params := rfl
@[simp] theorem State.writeVar_program (v : Var) (b : Byte) (s : State) : (s.writeVar v b).program = s.program := rfl
@[simp] theorem State.writeVar_pc (v : Var) (b : Byte) (s : State) : (s.writeVar v b).pc = s.pc := rfl
@[simp] theorem State.writeVar_flags (v : Var) (b : Byte) (s : State) : (s.writeVar v b).flags = s.flags := rfl
@[simp] theorem State.writeVar_halted (v : Var) (b : Byte) (s : State) : (s.writeVar v b).halted = s.halted := rfl
@[simp] theorem State.writeVar_pend (v : Var) (b : Byte) (s : State) : (s.writeVar v b).pend = s.pend := rfl
@[simp] theorem State.writeVar_ir (v : Var) (b : Byte) (s : State) : (s.writeVar v b).ir = s.ir := rfl
@[simp] theorem State.writeVar_lastFault (v : Var) (b : Byte) (s : State) : (s.writeVar v b).lastFault = s.lastFault := rfl
@[simp] theorem State.writeVar_vars (v : Var) (b : Byte) (s : State) : (s.writeVar v b).vars = s.vars.set v b := rfl
@[simp] theorem State.writeVar_scratch (v : Var) (b : Byte) (s : State) : (s.writeVar v b).scratch = s.scratch := rfl
@[simp] theorem State.writeVar_mirror (v : Var) (b : Byte) (s : State) : (s.writeVar v b).mirror = s.mirror := rfl
@[simp] theorem State.writeVar_events (v : Var) (b : Byte) (s : State) : (s.writeVar v b).events = s.events := rfl
@[simp] theorem State.writeVar_output (v : Var) (b : Byte) (s : State) : (s.writeVar v b).output = s.output := rfl

/-! Fields after `writeFlag`. -/

@[simp] theorem State.writeFlag_params (f : FlagName) (b : Bool) (s : State) : (s.writeFlag f b).params = s.params := rfl
@[simp] theorem State.writeFlag_program (f : FlagName) (b : Bool) (s : State) : (s.writeFlag f b).program = s.program := rfl
@[simp] theorem State.writeFlag_pc (f : FlagName) (b : Bool) (s : State) : (s.writeFlag f b).pc = s.pc := rfl
@[simp] theorem State.writeFlag_flags (f : FlagName) (b : Bool) (s : State) : (s.writeFlag f b).flags = s.flags.set f b := rfl
@[simp] theorem State.writeFlag_halted (f : FlagName) (b : Bool) (s : State) : (s.writeFlag f b).halted = s.halted := rfl
@[simp] theorem State.writeFlag_pend (f : FlagName) (b : Bool) (s : State) : (s.writeFlag f b).pend = s.pend := rfl
@[simp] theorem State.writeFlag_ir (f : FlagName) (b : Bool) (s : State) : (s.writeFlag f b).ir = s.ir := rfl
@[simp] theorem State.writeFlag_lastFault (f : FlagName) (b : Bool) (s : State) : (s.writeFlag f b).lastFault = s.lastFault := rfl
@[simp] theorem State.writeFlag_vars (f : FlagName) (b : Bool) (s : State) : (s.writeFlag f b).vars = s.vars := rfl
@[simp] theorem State.writeFlag_scratch (f : FlagName) (b : Bool) (s : State) : (s.writeFlag f b).scratch = s.scratch := rfl
@[simp] theorem State.writeFlag_mirror (f : FlagName) (b : Bool) (s : State) : (s.writeFlag f b).mirror = s.mirror := rfl
@[simp] theorem State.writeFlag_events (f : FlagName) (b : Bool) (s : State) : (s.writeFlag f b).events = s.events := rfl
@[simp] theorem State.writeFlag_output (f : FlagName) (b : Bool) (s : State) : (s.writeFlag f b).output = s.output := rfl

/-! Fields after `writeMirror`. -/

@[simp] theorem State.writeMirror_params (f : FlagName) (b : Bool) (s : State) : (s.writeMirror f b).params = s.params := rfl
@[simp] theorem State.writeMirror_program (f : FlagName) (b : Bool) (s : State) : (s.writeMirror f b).program = s.program := rfl
@[simp] theorem State.writeMirror_pc (f : FlagName) (b : Bool) (s : State) : (s.writeMirror f b).pc = s.pc := rfl
@[simp] theorem State.writeMirror_flags (f : FlagName) (b : Bool) (s : State) : (s.writeMirror f b).flags = s.flags := rfl
@[simp] theorem State.writeMirror_halted (f : FlagName) (b : Bool) (s : State) : (s.writeMirror f b).halted = s.halted := rfl
@[simp] theorem State.writeMirror_pend (f : FlagName) (b : Bool) (s : State) : (s.writeMirror f b).pend = s.pend := rfl
@[simp] theorem State.writeMirror_ir (f : FlagName) (b : Bool) (s : State) : (s.writeMirror f b).ir = s.ir := rfl
@[simp] theorem State.writeMirror_lastFault (f : FlagName) (b : Bool) (s : State) : (s.writeMirror f b).lastFault = s.lastFault := rfl
@[simp] theorem State.writeMirror_vars (f : FlagName) (b : Bool) (s : State) : (s.writeMirror f b).vars = s.vars := rfl
@[simp] theorem State.writeMirror_scratch (f : FlagName) (b : Bool) (s : State) : (s.writeMirror f b).scratch = s.scratch := rfl
@[simp] theorem State.writeMirror_mirror (f : FlagName) (b : Bool) (s : State) : (s.writeMirror f b).mirror = s.mirror.set f b := rfl
@[simp] theorem State.writeMirror_events (f : FlagName) (b : Bool) (s : State) : (s.writeMirror f b).events = s.events := rfl
@[simp] theorem State.writeMirror_output (f : FlagName) (b : Bool) (s : State) : (s.writeMirror f b).output = s.output := rfl

/-! Fields after `emit`. -/

@[simp] theorem State.emit_params (e : Event) (s : State) : (s.emit e).params = s.params := rfl
@[simp] theorem State.emit_program (e : Event) (s : State) : (s.emit e).program = s.program := rfl
@[simp] theorem State.emit_pc (e : Event) (s : State) : (s.emit e).pc = s.pc := rfl
@[simp] theorem State.emit_flags (e : Event) (s : State) : (s.emit e).flags = s.flags := rfl
@[simp] theorem State.emit_halted (e : Event) (s : State) : (s.emit e).halted = s.halted := rfl
@[simp] theorem State.emit_pend (e : Event) (s : State) : (s.emit e).pend = s.pend := rfl
@[simp] theorem State.emit_ir (e : Event) (s : State) : (s.emit e).ir = s.ir := rfl
@[simp] theorem State.emit_lastFault (e : Event) (s : State) : (s.emit e).lastFault = s.lastFault := rfl
@[simp] theorem State.emit_vars (e : Event) (s : State) : (s.emit e).vars = s.vars := rfl
@[simp] theorem State.emit_scratch (e : Event) (s : State) : (s.emit e).scratch = s.scratch := rfl
@[simp] theorem State.emit_mirror (e : Event) (s : State) : (s.emit e).mirror = s.mirror := rfl
@[simp] theorem State.emit_events (e : Event) (s : State) : (s.emit e).events = s.events ++ [e] := rfl
@[simp] theorem State.emit_output (e : Event) (s : State) : (s.emit e).output = s.output := rfl

/-! Fields after `print`. -/

@[simp] theorem State.print_params (v : Var) (s : State) : (s.print v).params = s.params := rfl
@[simp] theorem State.print_program (v : Var) (s : State) : (s.print v).program = s.program := rfl
@[simp] theorem State.print_pc (v : Var) (s : State) : (s.print v).pc = s.pc := rfl
@[simp] theorem State.print_flags (v : Var) (s : State) : (s.print v).flags = s.flags := rfl
@[simp] theorem State.print_halted (v : Var) (s : State) : (s.print v).halted = s.halted := rfl
@[simp] theorem State.print_pend (v : Var) (s : State) : (s.print v).pend = s.pend := rfl
@[simp] theorem State.print_ir (v : Var) (s : State) : (s.print v).ir = s.ir := rfl
@[simp] theorem State.print_lastFault (v : Var) (s : State) : (s.print v).lastFault = s.lastFault := rfl
@[simp] theorem State.print_vars (v : Var) (s : State) : (s.print v).vars = s.vars := rfl
@[simp] theorem State.print_scratch (v : Var) (s : State) : (s.print v).scratch = s.scratch := rfl
@[simp] theorem State.print_mirror (v : Var) (s : State) : (s.print v).mirror = s.mirror := rfl
@[simp] theorem State.print_events (v : Var) (s : State) : (s.print v).events = s.events := rfl
@[simp] theorem State.print_output (v : Var) (s : State) : (s.print v).output = s.output ++ [(v, s.readVar v)] := rfl

/-! Fields after `latch`. -/

@[simp] theorem State.latch_params (imm : Byte) (s : State) : (s.latch imm).params = s.params := rfl
@[simp] theorem State.latch_program (imm : Byte) (s : State) : (s.latch imm).program = s.program := rfl
@[simp] theorem State.latch_pc (imm : Byte) (s : State) : (s.latch imm).pc = s.pc + 1 := rfl
@[simp] theorem State.latch_flags (imm : Byte) (s : State) : (s.latch imm).flags = s.flags := rfl
@[simp] theorem State.latch_halted (imm : Byte) (s : State) : (s.latch imm).halted = s.halted := rfl
@[simp] theorem State.latch_pend (imm : Byte) (s : State) : (s.latch imm).pend = some imm := rfl
@[simp] theorem State.latch_ir (imm : Byte) (s : State) : (s.latch imm).ir = s.ir := rfl
@[simp] theorem State.latch_lastFault (imm : Byte) (s : State) : (s.latch imm).lastFault = s.lastFault := rfl
@[simp] theorem State.latch_vars (imm : Byte) (s : State) : (s.latch imm).vars = s.vars := rfl
@[simp] theorem State.latch_scratch (imm : Byte) (s : State) : (s.latch imm).scratch = s.scratch := rfl
@[simp] theorem State.latch_mirror (imm : Byte) (s : State) : (s.latch imm).mirror = s.mirror := rfl
@[simp] theorem State.latch_events (imm : Byte) (s : State) : (s.latch imm).events = s.events := rfl
@[simp] theorem State.latch_output (imm : Byte) (s : State) : (s.latch imm).output = s.output := rfl

/-! Fields after `halt`. -/

@[simp] theorem State.halt_params (s : State) : s.halt.params = s.params := rfl
@[simp] theorem State.halt_program (s : State) : s.halt.program = s.program := rfl
@[simp] theorem State.halt_pc (s : State) : s.halt.pc = s.pc := rfl
@[simp] theorem State.halt_flags (s : State) : s.halt.flags = s.flags := rfl
@[simp] theorem State.halt_halted (s : State) : s.halt.halted = true := rfl
@[simp] theorem State.halt_pend (s : State) : s.halt.pend = s.pend := rfl
@[simp] theorem State.halt_ir (s : State) : s.halt.ir = s.ir := rfl
@[simp] theorem State.halt_lastFault (s : State) : s.halt.lastFault = s.lastFault := rfl
@[simp] theorem State.halt_vars (s : State) : s.halt.vars = s.vars := rfl
@[simp] theorem State.halt_scratch (s : State) : s.halt.scratch = s.scratch := rfl
@[simp] theorem State.halt_mirror (s : State) : s.halt.mirror = s.mirror := rfl
@[simp] theorem State.halt_events (s : State) : s.halt.events = s.events := rfl
@[simp] theorem State.halt_output (s : State) : s.halt.output = s.output := rfl

/-! Fields after `haltPastEnd`. -/

@[simp] theorem State.haltPastEnd_params (s : State) : s.haltPastEnd.params = s.params := rfl
@[simp] theorem State.haltPastEnd_program (s : State) : s.haltPastEnd.program = s.program := rfl
@[simp] theorem State.haltPastEnd_pc (s : State) : s.haltPastEnd.pc = s.pc := rfl
@[simp] theorem State.haltPastEnd_flags (s : State) : s.haltPastEnd.flags = s.flags := rfl
@[simp] theorem State.haltPastEnd_halted (s : State) : s.haltPastEnd.halted = true := rfl
@[simp] theorem State.haltPastEnd_pend (s : State) : s.haltPastEnd.pend = none := rfl
@[simp] theorem State.haltPastEnd_ir (s : State) : s.haltPastEnd.ir = s.ir := rfl
@[simp] theorem State.haltPastEnd_lastFault (s : State) : s.haltPastEnd.lastFault = s.lastFault := rfl
@[simp] theorem State.haltPastEnd_vars (s : State) : s.haltPastEnd.vars = s.vars := rfl
@[simp] theorem State.haltPastEnd_scratch (s : State) : s.haltPastEnd.scratch = s.scratch := rfl
@[simp] theorem State.haltPastEnd_mirror (s : State) : s.haltPastEnd.mirror = s.mirror := rfl
@[simp] theorem State.haltPastEnd_events (s : State) : s.haltPastEnd.events = s.events := rfl
@[simp] theorem State.haltPastEnd_output (s : State) : s.haltPastEnd.output = s.output := rfl

/-! Fields after `clearPend`. -/

@[simp] theorem State.clearPend_params (s : State) : s.clearPend.params = s.params := rfl
@[simp] theorem State.clearPend_program (s : State) : s.clearPend.program = s.program := rfl
@[simp] theorem State.clearPend_pc (s : State) : s.clearPend.pc = s.pc := rfl
@[simp] theorem State.clearPend_flags (s : State) : s.clearPend.flags = s.flags := rfl
@[simp] theorem State.clearPend_halted (s : State) : s.clearPend.halted = s.halted := rfl
@[simp] theorem State.clearPend_pend (s : State) : s.clearPend.pend = none := rfl
@[simp] theorem State.clearPend_ir (s : State) : s.clearPend.ir = s.ir := rfl
@[simp] theorem State.clearPend_lastFault (s : State) : s.clearPend.lastFault = s.lastFault := rfl
@[simp] theorem State.clearPend_vars (s : State) : s.clearPend.vars = s.vars := rfl
@[simp] theorem State.clearPend_scratch (s : State) : s.clearPend.scratch = s.scratch := rfl
@[simp] theorem State.clearPend_mirror (s : State) : s.clearPend.mirror = s.mirror := rfl
@[simp] theorem State.clearPend_events (s : State) : s.clearPend.events = s.events := rfl
@[simp] theorem State.clearPend_output (s : State) : s.clearPend.output = s.output := rfl

/-! Fields after `raise`. -/

@[simp] theorem State.raise_params (k : FaultKind) (i : FaultInfo) (s : State) : (s.raise k i).params = s.params := rfl
@[simp] theorem State.raise_program (k : FaultKind) (i : FaultInfo) (s : State) : (s.raise k i).program = s.program := rfl
@[simp] theorem State.raise_pc (k : FaultKind) (i : FaultInfo) (s : State) : (s.raise k i).pc = s.pc := rfl
@[simp] theorem State.raise_flags (k : FaultKind) (i : FaultInfo) (s : State) : (s.raise k i).flags = s.flags := rfl
@[simp] theorem State.raise_halted (k : FaultKind) (i : FaultInfo) (s : State) : (s.raise k i).halted = true := rfl
@[simp] theorem State.raise_pend (k : FaultKind) (i : FaultInfo) (s : State) : (s.raise k i).pend = none := rfl
@[simp] theorem State.raise_ir (k : FaultKind) (i : FaultInfo) (s : State) : (s.raise k i).ir = s.ir := rfl
@[simp] theorem State.raise_lastFault (k : FaultKind) (i : FaultInfo) (s : State) : (s.raise k i).lastFault = some { kind := k, pc := s.pc, info := i } := rfl
@[simp] theorem State.raise_vars (k : FaultKind) (i : FaultInfo) (s : State) : (s.raise k i).vars = s.vars := rfl
@[simp] theorem State.raise_scratch (k : FaultKind) (i : FaultInfo) (s : State) : (s.raise k i).scratch = s.scratch := rfl
@[simp] theorem State.raise_mirror (k : FaultKind) (i : FaultInfo) (s : State) : (s.raise k i).mirror = s.mirror := rfl
@[simp] theorem State.raise_events (k : FaultKind) (i : FaultInfo) (s : State) : (s.raise k i).events = s.events := rfl
@[simp] theorem State.raise_output (k : FaultKind) (i : FaultInfo) (s : State) : (s.raise k i).output = s.output := rfl

/-! Fields after `fetchWord`. -/

@[simp] theorem State.fetchWord_params (c : Nat) (w : Word) (s : State) : (s.fetchWord c w).params = s.params := rfl
@[simp] theorem State.fetchWord_program (c : Nat) (w : Word) (s : State) : (s.fetchWord c w).program = s.program := rfl
@[simp] theorem State.fetchWord_pc (c : Nat) (w : Word) (s : State) : (s.fetchWord c w).pc = s.pc := rfl
@[simp] theorem State.fetchWord_flags (c : Nat) (w : Word) (s : State) : (s.fetchWord c w).flags = s.flags := rfl
@[simp] theorem State.fetchWord_halted (c : Nat) (w : Word) (s : State) : (s.fetchWord c w).halted = s.halted := rfl
@[simp] theorem State.fetchWord_pend (c : Nat) (w : Word) (s : State) : (s.fetchWord c w).pend = s.pend := rfl
@[simp] theorem State.fetchWord_ir (c : Nat) (w : Word) (s : State) : (s.fetchWord c w).ir = w := rfl
@[simp] theorem State.fetchWord_lastFault (c : Nat) (w : Word) (s : State) : (s.fetchWord c w).lastFault = s.lastFault := rfl
@[simp] theorem State.fetchWord_vars (c : Nat) (w : Word) (s : State) : (s.fetchWord c w).vars = s.vars := rfl
@[simp] theorem State.fetchWord_scratch (c : Nat) (w : Word) (s : State) : (s.fetchWord c w).scratch = s.scratch := rfl
@[simp] theorem State.fetchWord_mirror (c : Nat) (w : Word) (s : State) : (s.fetchWord c w).mirror = s.mirror := rfl
@[simp] theorem State.fetchWord_events (c : Nat) (w : Word) (s : State) : (s.fetchWord c w).events = s.events ++ [.fetchWord c w] ++ [.decodeWord (op4 w) (dst4 w) (arg8 w)] := rfl
@[simp] theorem State.fetchWord_output (c : Nat) (w : Word) (s : State) : (s.fetchWord c w).output = s.output := rfl

/-! Fields after `resetRegisters`. -/

@[simp] theorem State.resetRegisters_params (s : State) : s.resetRegisters.params = s.params := rfl
@[simp] theorem State.resetRegisters_program (s : State) : s.resetRegisters.program = s.program := rfl
@[simp] theorem State.resetRegisters_pc (s : State) : s.resetRegisters.pc = 0 := rfl
@[simp] theorem State.resetRegisters_flags (s : State) : s.resetRegisters.flags = Flags.clear := rfl
@[simp] theorem State.resetRegisters_halted (s : State) : s.resetRegisters.halted = false := rfl
@[simp] theorem State.resetRegisters_pend (s : State) : s.resetRegisters.pend = none := rfl
@[simp] theorem State.resetRegisters_ir (s : State) : s.resetRegisters.ir = 0#16 := rfl
@[simp] theorem State.resetRegisters_lastFault (s : State) : s.resetRegisters.lastFault = none := rfl
@[simp] theorem State.resetRegisters_vars (s : State) : s.resetRegisters.vars = s.vars := rfl
@[simp] theorem State.resetRegisters_scratch (s : State) : s.resetRegisters.scratch = s.scratch := rfl
@[simp] theorem State.resetRegisters_mirror (s : State) : s.resetRegisters.mirror = Flags.clear := rfl
@[simp] theorem State.resetRegisters_events (s : State) : s.resetRegisters.events = s.events := rfl
@[simp] theorem State.resetRegisters_output (s : State) : s.resetRegisters.output = s.output := rfl

/-! Fields after `clearStore`. -/

@[simp] theorem State.clearStore_params (s : State) : s.clearStore.params = s.params := rfl
@[simp] theorem State.clearStore_program (s : State) : s.clearStore.program = s.program := rfl
@[simp] theorem State.clearStore_pc (s : State) : s.clearStore.pc = s.pc := rfl
@[simp] theorem State.clearStore_flags (s : State) : s.clearStore.flags = s.flags := rfl
@[simp] theorem State.clearStore_halted (s : State) : s.clearStore.halted = s.halted := rfl
@[simp] theorem State.clearStore_pend (s : State) : s.clearStore.pend = s.pend := rfl
@[simp] theorem State.clearStore_ir (s : State) : s.clearStore.ir = s.ir := rfl
@[simp] theorem State.clearStore_lastFault (s : State) : s.clearStore.lastFault = s.lastFault := rfl
@[simp] theorem State.clearStore_vars (s : State) : s.clearStore.vars = Vars.zero := rfl
@[simp] theorem State.clearStore_scratch (s : State) : s.clearStore.scratch = Scratch.zero := rfl
@[simp] theorem State.clearStore_mirror (s : State) : s.clearStore.mirror = Flags.clear := rfl
@[simp] theorem State.clearStore_events (s : State) : s.clearStore.events = s.events := rfl
@[simp] theorem State.clearStore_output (s : State) : s.clearStore.output = s.output := rfl

/-! Variables, flags and scratch registers: reading what was written, and leaving the rest (R55). -/

@[simp] theorem Vars.get_set_same (v : Var) (b : Byte) (vs : Vars) : (vs.set v b).get v = b := by
  cases v <;> rfl

theorem Vars.get_set_other (v u : Var) (b : Byte) (vs : Vars) (h : u ≠ v) : (vs.set v b).get u = vs.get u := by
  cases v <;> cases u <;> first
    | rfl
    | exact absurd rfl h

/-- Two sets of variables that agree on every variable are equal. -/
theorem Vars.ext_get (vs ws : Vars) (h : ∀ v, vs.get v = ws.get v) : vs = ws := by
  cases vs
  cases ws
  have hq := h .q
  have hw := h .w
  have he := h .e
  have hr := h .r
  have ha := h .a
  have hs := h .s
  have hd := h .d
  have hz := h .z
  have hx := h .x
  simp only [Vars.get] at hq hw he hr ha hs hd hz hx
  subst hq hw he hr ha hs hd hz hx
  rfl

@[simp] theorem Flags.get_set_same (f : FlagName) (b : Bool) (fl : Flags) : (fl.set f b).get f = b := by
  cases f <;> rfl

theorem Flags.get_set_other (f g : FlagName) (b : Bool) (fl : Flags) (h : g ≠ f) : (fl.set f b).get g = fl.get g := by
  cases f <;> cases g <;> first
    | rfl
    | exact absurd rfl h

@[simp] theorem State.readVar_writeVar_same (v : Var) (b : Byte) (s : State) : (s.writeVar v b).readVar v = b := by
  cases v <;> rfl

theorem State.readVar_writeVar_other (v u : Var) (b : Byte) (s : State) (h : u ≠ v) :
    (s.writeVar v b).readVar u = s.readVar u :=
  Vars.get_set_other v u b s.vars h

/-! Values. -/

/-- The value of a stored integer is its `wrap8` (R10, R23). -/
theorem toInt_byteOfInt (n : Int) : (byteOfInt n).toInt = wrap8 n := by
  simp only [byteOfInt, BitVec.toInt_ofInt, wrap8, Int.bmod]
  omega

/-! The memory this hardware has is its cells: there is no byte-addressed memory whose form an operation could break
(R6, R12), so there is no canonical form to keep. -/

end Sys2Proof.Machine
end

