-- ==== Sys2Proof/Laws/Exec.lean ====
section
/-!
SUPPORT. What the Execute phase of ISA mode can do, said once: `exec_effect` lists the shapes of every next state, and
`exec_next` says that there always is one. Invariants go through these.
-/

namespace Sys2Proof.Machine

/-- A register field names a register exactly when it is well formed (R21, R83). -/
theorem rdVar_isSome (rd : BitVec 4) : (rdVar rd).isSome = validRd rd := by
  revert rd; decide

theorem rsVar_isSome (rs : Byte) : (rsVar rs).isSome = validRs rs := by
  by_cases h : rs.toNat ≤ 8
  · simp only [rsVar, validRs, h, decide_true]
    interval_cases rs.toNat <;> rfl
  · simp only [rsVar, validRs, h, decide_false]
    unfold varOfId
    split <;> first
      | omega
      | rfl

theorem rdVar_none {rd : BitVec 4} (h : rdVar rd = none) : validRd rd = false := by
  rw [← rdVar_isSome, h]
  rfl

theorem rsVar_none {rs : Byte} (h : rsVar rs = none) : validRs rs = false := by
  rw [← rsVar_isSome, h]
  rfl

/-- The shapes of the next states that `exec i s` can answer. -/
inductive ExecEffect (s : State) : Instr → State → Prop where
  /-- A register field that names no register, or a reserved condition (R82, R83). -/
  | malformed (i : Instr) (h : i.wellFormed = false) (hc : ∀ rd imm, i ≠ .cmpi rd imm) : ExecEffect s i s.raiseMalformed
  /-- The same of the CMP word of a CMPI, at its own index (R203, R244). -/
  | malformedPair (rd : BitVec 4) (imm : Byte) (h : validRd rd = false) :
      ExecEffect s (.cmpi rd imm) (s.latch imm).raiseMalformed
  | prefixed (imm : Byte) : ExecEffect s (.ext imm) (s.latch imm)
  | nothing : ExecEffect s .nop s.advance
  | halted : ExecEffect s .halt s.halt
  | moved (i : Instr) (v : Var) (b : Byte) : ExecEffect s i (s.writeVar v b).advance
  | computed (i : Instr) (f : AluFn) (a b : Byte) (v : Var) : ExecEffect s i (s.aluTo f a b v).advance
  | compared (rd : BitVec 4) (rs a b : Byte) : ExecEffect s (.cmp rd rs) (s.compare a b)
  | comparedPair (rd : BitVec 4) (imm a : Byte) : ExecEffect s (.cmpi rd imm) ((s.latch imm).compare a imm)
  | taken (i : Instr) (disp : Byte) : ExecEffect s i (s.takeBranch disp)
  | fellThrough (i : Instr) : ExecEffect s i s.advance

theorem withRd_effect {i : Instr} {rd : BitVec 4} {s t : State} {k : Var → State}
    (h : withRd rd s (fun v => .next (k v)) = .next t) (hw : validRd rd = false → i.wellFormed = false)
    (hc : ∀ rd imm, i ≠ .cmpi rd imm) (hk : ∀ v, ExecEffect s i (k v)) : ExecEffect s i t := by
  unfold withRd at h
  split at h
  · cases h
    exact hk _
  · cases h
    exact .malformed i (hw (rdVar_none (by assumption))) hc

theorem withRdRs_effect {i : Instr} {rd : BitVec 4} {rs : Byte} {s t : State} {k : Var → Var → State}
    (h : withRdRs rd rs s (fun v u => .next (k v u)) = .next t)
    (hw : (validRd rd && validRs rs) = false → i.wellFormed = false) (hc : ∀ rd imm, i ≠ .cmpi rd imm)
    (hk : ∀ v u, ExecEffect s i (k v u)) : ExecEffect s i t := by
  unfold withRdRs at h
  split at h
  · cases h
    exact hk _ _
  · rename_i hn
    cases h
    refine .malformed i (hw ?_) hc
    rw [← rdVar_isSome, ← rsVar_isSome]
    cases hd : rdVar rd with
    | none => rfl
    | some v =>
      cases hs : rsVar rs with
      | none => rfl
      | some u => exact absurd hs (hn v u hd)

theorem condBranch_effect {i : Instr} {c : Cond} {disp : Byte} {s t : State}
    (h : (Host.Outcome.next (s.condBranch c disp) : Result) = .next t) : ExecEffect s i t := by
  cases h
  unfold State.condBranch
  split
  · exact .taken i disp
  · exact .fellThrough i

/-- Every next state of `exec` has one of the shapes. -/
theorem exec_effect {i : Instr} {s t : State} (h : exec i s = .next t) : ExecEffect s i t := by
  cases i with
  | ext imm => cases h; exact .prefixed imm
  | nop => cases h; exact .nothing
  | halt => cases h; exact .halted
  | mov rd rs => exact withRdRs_effect h id (by intros; exact Instr.noConfusion) fun v u => .moved _ _ _
  | movi rd imm => exact withRd_effect h id (by intros; exact Instr.noConfusion) fun v => .moved _ _ _
  | add rd rs => exact withRdRs_effect h id (by intros; exact Instr.noConfusion) fun v u => .computed _ _ _ _ _
  | addi rd imm => exact withRd_effect h id (by intros; exact Instr.noConfusion) fun v => .computed _ _ _ _ _
  | sub rd rs => exact withRdRs_effect h id (by intros; exact Instr.noConfusion) fun v u => .computed _ _ _ _ _
  | subi rd imm => exact withRd_effect h id (by intros; exact Instr.noConfusion) fun v => .computed _ _ _ _ _
  | and rd rs => exact withRdRs_effect h id (by intros; exact Instr.noConfusion) fun v u => .computed _ _ _ _ _
  | or rd rs => exact withRdRs_effect h id (by intros; exact Instr.noConfusion) fun v u => .computed _ _ _ _ _
  | xor rd rs => exact withRdRs_effect h id (by intros; exact Instr.noConfusion) fun v u => .computed _ _ _ _ _
  | shl rd => exact withRd_effect h id (by intros; exact Instr.noConfusion) fun v => .computed _ _ _ _ _
  | shr rd => exact withRd_effect h id (by intros; exact Instr.noConfusion) fun v => .computed _ _ _ _ _
  | neg rd => exact withRd_effect h id (by intros; exact Instr.noConfusion) fun v => .computed _ _ _ _ _
  | cmp rd rs =>
    have h' : compareWord rd rs s = .next t := h
    unfold compareWord at h'
    split at h'
    · refine withRd_effect h' ?_ (by intros; exact Instr.noConfusion) fun v => .compared _ _ _ _
      intro hrd
      simp only [Instr.wellFormed, hrd, Bool.false_and]
    · exact withRdRs_effect h' id (by intros; exact Instr.noConfusion) fun v u => .compared _ _ _ _
  | cmpi rd imm =>
    have h' : withRd rd (s.latch imm) (fun v => .next ((s.latch imm).compare ((s.latch imm).readVar v) imm)) = .next t := h
    unfold withRd at h'
    split at h'
    · cases h'
      exact .comparedPair _ _ _
    · cases h'
      exact .malformedPair _ _ (rdVar_none (by assumption))
  | jmp disp => cases h; exact .taken _ disp
  | beq disp => exact condBranch_effect h
  | bne disp => exact condBranch_effect h
  | bpl disp => exact condBranch_effect h
  | bmi disp => exact condBranch_effect h
  | bvc disp => exact condBranch_effect h
  | bvs disp => exact condBranch_effect h
  | bcc disp => exact condBranch_effect h
  | bcs disp => exact condBranch_effect h
  | reserved low disp => cases h; exact .malformed _ rfl (by intros; exact Instr.noConfusion)

theorem withRd_next (rd : BitVec 4) (s : State) (k : Var → State) :
    ∃ t, withRd rd s (fun v => .next (k v)) = .next t := by
  unfold withRd
  split <;> exact ⟨_, rfl⟩

theorem withRdRs_next (rd : BitVec 4) (rs : Byte) (s : State) (k : Var → Var → State) :
    ∃ t, withRdRs rd rs s (fun v u => .next (k v u)) = .next t := by
  unfold withRdRs
  split <;> exact ⟨_, rfl⟩

theorem compareWord_next (rd : BitVec 4) (rs : Byte) (s : State) : ∃ t, compareWord rd rs s = .next t := by
  unfold compareWord
  split
  · exact withRd_next _ _ _
  · exact withRdRs_next _ _ _ _

/-- `exec` always answers a next state: no instruction is refused and a fault of R241 is a next state. -/
theorem exec_next (i : Instr) (s : State) : ∃ t, exec i s = .next t := by
  cases i <;> first
    | exact ⟨_, rfl⟩
    | exact withRd_next _ _ _
    | exact withRdRs_next _ _ _ _
    | exact compareWord_next _ _ _

end Sys2Proof.Machine
end

