-- ==== Sys2Proof/Laws/Flags.lean ====
section
/-!
SUPPORT. The flags of the ALU's additive and logic functions in integer arithmetic: the formulas of Flags.lean over the
scratch cells equal the flags of Safety.lean over the operands (R158 to R162).
-/

namespace Sys2Proof.Machine

theorem getLsbD_seven : ∀ b : Byte, b.getLsbD 7 = decide (b.toInt < 0) := by decide

theorem beq_zero_eq : ∀ b : Byte, (b == 0#8) = decide (b.toInt = 0) := by decide

theorem toInt_range (b : Byte) : -128 ≤ b.toInt ∧ b.toInt ≤ 127 := by
  have h1 := BitVec.toInt_lt (x := b)
  have h2 := BitVec.le_toInt (x := b)
  omega

theorem toInt_add_eq (a b : Byte) : (a + b).toInt = wrap8 (a.toInt + b.toInt) := by
  simp only [BitVec.toInt_add, wrap8, Int.bmod_def]
  omega

theorem toInt_sub_eq (a b : Byte) : (a - b).toInt = wrap8 (a.toInt - b.toInt) := by
  simp only [BitVec.toInt_sub, wrap8, Int.bmod_def]
  omega

theorem add_eq_byteOfInt (a b : Byte) : a + b = byteOfInt (a.toInt + b.toInt) :=
  BitVec.eq_of_toInt_eq (by rw [toInt_add_eq, toInt_byteOfInt])

theorem sub_eq_byteOfInt (a b : Byte) : a - b = byteOfInt (a.toInt - b.toInt) :=
  BitVec.eq_of_toInt_eq (by rw [toInt_sub_eq, toInt_byteOfInt])

theorem nativeFlags_add (p : Params) (a b : Byte) (sc : Scratch) (old : Flags) :
    nativeFlags p .add (nativeScratch .add a b sc) old = sumFlags a b := by
  have ha := toInt_range a
  have hb := toInt_range b
  simp only [nativeFlags, nativeScratch, sumFlags, AluFn.isLogic, flagZ, flagN, flagV, flagC, nativeCy, nativeResult,
    Bool.false_and, Bool.false_eq_true, if_false, AluFn.isBinary, if_true, getLsbD_seven, beq_zero_eq, toInt_add_eq,
    wrap8]
  congr 1
  rw [Bool.eq_iff_iff]
  simp only [Bool.and_eq_true, beq_iff_eq, bne_iff_ne, decide_eq_true_eq, decide_eq_decide, ne_eq]
  omega

theorem nativeFlags_sub (p : Params) (a b : Byte) (sc : Scratch) (old : Flags) :
    nativeFlags p .sub (nativeScratch .sub a b sc) old = differenceFlags p a b := by
  have ha := toInt_range a
  have hb := toInt_range b
  simp only [nativeFlags, nativeScratch, differenceFlags, AluFn.isLogic, flagZ, flagN, flagV, flagC, nativeCy,
    nativeResult, Bool.false_and, Bool.false_eq_true, if_false, AluFn.isBinary, if_true, getLsbD_seven, beq_zero_eq,
    toInt_sub_eq, wrap8]
  congr 1
  · rw [Bool.eq_iff_iff]
    simp only [Bool.and_eq_true, bne_iff_ne, decide_eq_true_eq, decide_eq_decide, ne_eq]
    omega
  · cases p.cSub <;> simp [← decide_not]

theorem nativeFlags_logic (p : Params) (f : AluFn) (hf : f.isLogic = true) (a b : Byte) (sc : Scratch) (old : Flags) :
    nativeFlags p f (nativeScratch f a b sc) old = logicFlags p (nativeResult f a b) old := by
  simp only [nativeFlags, logicFlags, hf, flagZ, flagN, nativeScratch, getLsbD_seven, beq_zero_eq]
  cases f <;> cases p.logicVC <;> first
    | rfl
    | cases hf

end Sys2Proof.Machine
end

