-- ==== Sys2Proof/Laws/Load.lean ====
section
/-!
SUPPORT. The assembler, said once: the fields it writes for a variable (R113), and what an item and a list of items of
pass 2 answer (R112, R115). Provers cite `fixItem_cases` and `pass2_append` instead of unfolding pass 2.
-/

namespace Sys2Proof.Machine

/-- The `dst4` field of a variable names it (R21, R113). -/
@[simp] theorem rdVar_rdField (v : Var) : rdVar (rdField v) = some v := by
  cases v <;> rfl

/-- The `arg8` field of a variable names it (R21, R74, R113). -/
@[simp] theorem rsVar_rsField (v : Var) : rsVar (rsField v) = some v := by
  cases v <;> rfl

@[simp] theorem rdField_toNat (v : Var) : (rdField v).toNat = idOfVar v := by
  cases v <;> rfl

@[simp] theorem rsField_toNat (v : Var) : (rsField v).toNat = idOfVar v := by
  cases v <;> rfl

/-- The pattern the assembler stores for an integer is its `u8` (R10, R73). -/
theorem byteOfInt_toNat (n : Int) : (byteOfInt n).toNat = (u8 n).toNat := by
  simp only [byteOfInt, BitVec.toNat_ofInt, u8]
  rfl

/-- What pass 2 answers for one item: the item itself, a site with its offset put in, or the error of R112. -/
theorem fixItem_cases (labels : List (Text × Nat)) (index : Nat) (item : PendingItem) :
    (item.site = none ∧ fixItem labels index item = .ok { word := item.word, text := item.text }) ∨
    (∃ name, item.site = some name ∧ lookupLabel name labels = none ∧
      fixItem labels index item = .error (.undefinedLabel name)) ∨
    ∃ name target, item.site = some name ∧ lookupLabel name labels = some target ∧
      ((branchOffset target index < -128 ∨ 127 < branchOffset target index) ∧
          fixItem labels index item = .error (.branchOutOfRange index (branchOffset target index)) ∨
        (-128 ≤ branchOffset target index ∧ branchOffset target index ≤ 127) ∧
          fixItem labels index item =
            .ok { word := fixWord item.word (branchOffset target index), text := item.text }) := by
  unfold fixItem
  cases hs : item.site with
  | none => exact .inl ⟨rfl, rfl⟩
  | some name =>
    cases hl : lookupLabel name labels with
    | none => exact .inr (.inl ⟨name, rfl, hl, by simp only [hl]⟩)
    | some target =>
      refine .inr (.inr ⟨name, target, rfl, hl, ?_⟩)
      by_cases hr : branchOffset target index < -128 ∨ 127 < branchOffset target index
      · exact .inl ⟨hr, by simp only [hl, if_pos hr]⟩
      · exact .inr ⟨by omega, by simp only [hl, if_neg hr]⟩

/-- Pass 2 of two lists is pass 2 of the first, then of the second from the index after it, up to the first error. -/
theorem pass2_append (labels : List (Text × Nat)) (xs ys : List PendingItem) (index : Nat) :
    pass2 labels index (xs ++ ys) =
      match pass2 labels index xs with
      | .error e => .error e
      | .ok out =>
        match pass2 labels (index + xs.length) ys with
        | .error e => .error e
        | .ok more => .ok (out ++ more) := by
  induction xs generalizing index with
  | nil =>
    simp only [List.nil_append, pass2, List.length_nil, Nat.add_zero]
    cases pass2 labels index ys <;> rfl
  | cons x xs ih =>
    simp only [List.cons_append, pass2, List.length_cons, ih (index + 1)]
    rw [show index + 1 + xs.length = index + (xs.length + 1) by omega]
    cases fixItem labels index x with
    | error e => rfl
    | ok fixed =>
      cases pass2 labels (index + 1) xs with
      | error e => rfl
      | ok out => cases pass2 labels (index + (xs.length + 1)) ys <;> rfl

end Sys2Proof.Machine
end

