-- ==== Sys2Proof/Laws/PerInstr.lean ====
section
/-!
SUPPORT. The per-instruction family Encoding: the words of an instruction are as many as its size, and the decoder reads
the instruction back from them.
-/

namespace Sys2Proof.Laws.Encoding

/-- What the family says of an instruction. -/
def Statement (i : Instr) : Prop := (encode i).length = i.size ∧ decode (encode i) = .ok (i, [])

/-- A one-word instruction is read back when its word's fields decode to it. -/
theorem single (i : Instr) (op dst : BitVec 4) (arg : Byte) (h : encode i = [mkWord op dst arg])
    (hd : decodeFields op dst arg = i) (hs : i.size = 1) : Statement i := by
  constructor
  · simp only [h, hs, List.length_singleton]
  · have hp : pairWith i none = i := by cases i <;> rfl
    simp only [h, decode_cons, decodeWord_mkWord, hd, List.head?_nil, Option.map_none, hp, List.drop_nil]

theorem ext (imm : Byte) : Statement (.ext imm) := single _ _ _ _ rfl rfl rfl

theorem nop : Statement .nop := single _ _ _ _ rfl rfl rfl

theorem halt : Statement .halt := single _ _ _ _ rfl rfl rfl

theorem mov (rd : BitVec 4) (rs : Byte) : Statement (.mov rd rs) := single _ _ _ _ rfl rfl rfl

theorem movi (rd : BitVec 4) (imm : Byte) : Statement (.movi rd imm) := single _ _ _ _ rfl rfl rfl

theorem add (rd : BitVec 4) (rs : Byte) : Statement (.add rd rs) := single _ _ _ _ rfl rfl rfl

theorem addi (rd : BitVec 4) (imm : Byte) : Statement (.addi rd imm) := single _ _ _ _ rfl rfl rfl

theorem sub (rd : BitVec 4) (rs : Byte) : Statement (.sub rd rs) := single _ _ _ _ rfl rfl rfl

theorem subi (rd : BitVec 4) (imm : Byte) : Statement (.subi rd imm) := single _ _ _ _ rfl rfl rfl

theorem and (rd : BitVec 4) (rs : Byte) : Statement (.and rd rs) := single _ _ _ _ rfl rfl rfl

theorem or (rd : BitVec 4) (rs : Byte) : Statement (.or rd rs) := single _ _ _ _ rfl rfl rfl

theorem xor (rd : BitVec 4) (rs : Byte) : Statement (.xor rd rs) := single _ _ _ _ rfl rfl rfl

theorem shl (rd : BitVec 4) : Statement (.shl rd) := single _ _ _ _ rfl rfl rfl

theorem shr (rd : BitVec 4) : Statement (.shr rd) := single _ _ _ _ rfl rfl rfl

theorem neg (rd : BitVec 4) : Statement (.neg rd) := single _ _ _ _ rfl rfl rfl

theorem cmp (rd : BitVec 4) (rs : Byte) : Statement (.cmp rd rs) := single _ _ _ _ rfl rfl rfl

theorem cmpi (rd : BitVec 4) (imm : Byte) : Statement (.cmpi rd imm) := by
  refine ⟨rfl, ?_⟩
  have h : pairWith (decodeWord (mkWord 0x0 0xE imm)) (some (decodeWord (mkWord 0xD rd 0x00))) = .cmpi rd imm := by
    rw [decodeWord_mkWord, decodeWord_mkWord]
    rfl
  simp only [encode, decode_cons, List.head?_cons, Option.map_some, h]
  rfl

theorem jmp (disp : Byte) : Statement (.jmp disp) := single _ _ _ _ rfl rfl rfl

theorem beq (disp : Byte) : Statement (.beq disp) := single _ _ _ _ rfl rfl rfl

theorem bne (disp : Byte) : Statement (.bne disp) := single _ _ _ _ rfl rfl rfl

theorem bpl (disp : Byte) : Statement (.bpl disp) := single _ _ _ _ rfl rfl rfl

theorem bmi (disp : Byte) : Statement (.bmi disp) := single _ _ _ _ rfl rfl rfl

theorem bvc (disp : Byte) : Statement (.bvc disp) := single _ _ _ _ rfl rfl rfl

theorem bvs (disp : Byte) : Statement (.bvs disp) := single _ _ _ _ rfl rfl rfl

theorem bcc (disp : Byte) : Statement (.bcc disp) := single _ _ _ _ rfl rfl rfl

theorem bcs (disp : Byte) : Statement (.bcs disp) := single _ _ _ _ rfl rfl rfl

theorem reserved (low : BitVec 3) (disp : Byte) : Statement (.reserved low disp) := by
  refine single _ 0xF#4 (1#1 ++ low) disp rfl ?_ rfl
  revert low
  decide +revert

end Sys2Proof.Laws.Encoding
end

