-- ==== Sys2Proof/Laws/Step.lean ====
section
/-!
SUPPORT. What a step can do, said once for each mode: the inversion of fetching (`fetchInstr_cases`), of the ISA-mode loop
(`isaLoop_induct`), of micro mode (`microCycle_cases`), of a step in both modes (`step_induct`), and what no step touches.
-/

namespace Sys2Proof.Machine

theorem onNext_eq_next {r : Result} {f : State → Result} {t : State} (h : onNext r f = .next t) :
    ∃ s, r = .next s ∧ f s = .next t := by
  cases r with
  | next s => exact ⟨s, rfl, h⟩
  | fault e => cases h
  | refused e => cases h

/-- A fetched instruction is the decoding of the words at the PC; only `ir` and the event log change (R132, R136). -/
theorem fetchInstr_cases {s s1 : State} {i : Instr} (h : s.fetchInstr = some (i, s1)) :
    (∃ rest, decode s.wordsAtPc = .ok (i, rest)) ∧ s.pc < s.isaItems.length ∧
      ∃ w evs, s1 = { s with ir := w, events := evs } := by
  unfold State.fetchInstr at h
  split at h
  · cases h
  · rename_i w ws hw
    split at h
    · cases h
    · rename_i i' rest hd
      have hlt : s.pc < s.isaItems.length := by
        by_contra hge
        rw [State.wordsAtPc, List.drop_eq_nil_of_le (by omega)] at hw
        cases hw
      rw [hw]
      split at h
      · cases h
        exact ⟨⟨rest, hd⟩, hlt, _, _, rfl⟩
      · cases h
        exact ⟨⟨rest, hd⟩, hlt, _, _, rfl⟩

/-- Where there is a word at the PC, fetching succeeds (R131, R132). -/
theorem fetchInstr_isSome {s : State} (h : s.pc < s.isaItems.length) : ∃ i s1, s.fetchInstr = some (i, s1) := by
  unfold State.fetchInstr
  split
  · rename_i hw
    have hl := congrArg List.length hw
    simp only [State.wordsAtPc, List.length_map, List.length_drop, List.length_nil] at hl
    omega
  · split
    · rename_i hd
      cases hd
    · dsimp only
      split <;> exact ⟨_, _, rfl⟩

/-- The induction of the ISA-mode loop: a property `P` of the states at a fetch, kept by every EXT, gives a property `Q` of
the final state if the end of the program and every executed instruction give it. -/
theorem isaLoop_induct (P Q : State → Prop) (hEnd : ∀ s, P s → Q s.haltPastEnd)
    (hPrefix : ∀ s s1 imm, P s → s.fetchInstr = some (.ext imm, s1) → P (s1.latch imm))
    (hExec : ∀ s s1 i t, P s → s.fetchInstr = some (i, s1) → isPrefixWord i = false →
      exec i (beginExecute i s1) = .next t → Q (finishExecute i t)) :
    ∀ fuel s t, P s → isaLoop fuel s = .next t → Q t := by
  intro fuel
  induction fuel with
  | zero =>
    intro s t hs h
    cases h
    exact hEnd s hs
  | succ fuel ih =>
    intro s t hs h
    unfold isaLoop at h
    split at h
    · cases h
      exact hEnd s hs
    · rename_i i s1 hf
      split at h
      · rename_i hp
        obtain ⟨imm, rfl⟩ : ∃ imm, i = .ext imm := by
          cases i <;> first
            | exact ⟨_, rfl⟩
            | cases hp
        exact ih _ _ (hPrefix s s1 imm hs hf) h
      · rename_i hp
        obtain ⟨u, hu, ht⟩ := onNext_eq_next h
        cases ht
        exact hExec s s1 i u hs hf (by simpa using hp) hu

theorem executePhase_next (i : Instr) (s : State) : ∃ t, executePhase i s = .next t := by
  obtain ⟨t, ht⟩ := exec_next i (beginExecute i s)
  exact ⟨_, by rw [executePhase, ht]; rfl⟩

theorem isaLoop_next : ∀ fuel s, ∃ t, isaLoop fuel s = .next t := by
  intro fuel
  induction fuel with
  | zero => exact fun s => ⟨_, rfl⟩
  | succ fuel ih =>
    intro s
    unfold isaLoop
    split
    · exact ⟨_, rfl⟩
    · split
      · rename_i i s1 _ _
        obtain ⟨t, ht⟩ := exec_next i s1
        rw [ht]
        exact ih t
      · exact executePhase_next _ _

theorem execLine_next (op : LineOp) (s : State) : ∃ t, execLine op s = .next t := by
  cases op with
  | assign dst p => cases p <;> exact ⟨_, rfl⟩
  | _ => exact ⟨_, rfl⟩

/-- What a micro-mode step does (R142): the end of the program, or one line executed. -/
theorem microCycle_cases {s t : State} (h : microCycle s = .next t) :
    (s.microLines[s.pc]? = none ∧ t = s.haltPastEnd) ∨
      ∃ line u, s.microLines[s.pc]? = some line ∧
        execLine (parseLine line) ((s.fetchLine line).emit .execute) = .next u ∧ t = u.clearPend.emit .writeback := by
  unfold microCycle at h
  split at h
  · rename_i hl
    cases h
    exact .inl ⟨hl, rfl⟩
  · rename_i line hl
    obtain ⟨u, hu, ht⟩ := onNext_eq_next h
    cases ht
    exact .inr ⟨line, u, hl, hu, rfl⟩

/-- Only a CPU that runs has a next state, and it steps by its mode (R130, R141, R142). -/
theorem step_eq_next {s t : State} (h : step s = .next t) :
    s.halted = false ∧ ((s.mode = .isa ∧ isaCycle s = .next t) ∨ (s.mode = .micro ∧ microCycle s = .next t)) := by
  unfold step stepCycle at h
  split at h
  · cases h
  · rename_i hh
    refine ⟨by simpa using hh, ?_⟩
    split at h
    · rename_i hm
      exact .inl ⟨hm, h⟩
    · rename_i hm
      exact .inr ⟨hm, h⟩

/-! What no instruction and no line touches. -/

theorem takeBranch_cases (disp : Byte) (s : State) :
    (branchTarget disp s < 0 ∧ s.takeBranch disp = s.raise .branchTargetNegative (.target (branchTarget disp s))) ∨
      (0 ≤ branchTarget disp s ∧ s.takeBranch disp = { s with pc := (branchTarget disp s).toNat }) := by
  unfold State.takeBranch
  split
  · exact .inl ⟨by assumption, rfl⟩
  · exact .inr ⟨by omega, rfl⟩

/-- No instruction changes the parameters, the program, `ir` or the logs (R52, R63). -/
theorem ExecEffect.keeps {s t : State} {i : Instr} (h : ExecEffect s i t) :
    t.params = s.params ∧ t.program = s.program ∧ t.ir = s.ir ∧ t.events = s.events ∧ t.output = s.output := by
  cases h with
  | taken i disp => rcases takeBranch_cases disp s with ⟨-, h⟩ | ⟨-, h⟩ <;> rw [h] <;> exact ⟨rfl, rfl, rfl, rfl, rfl⟩
  | computed i f a b v => rw [State.aluTo_eq]; exact ⟨rfl, rfl, rfl, rfl, rfl⟩
  | compared rd rs a b => rw [State.compare, State.alu_eq]; exact ⟨rfl, rfl, rfl, rfl, rfl⟩
  | comparedPair rd imm a => rw [State.compare, State.alu_eq]; exact ⟨rfl, rfl, rfl, rfl, rfl⟩
  | _ => exact ⟨rfl, rfl, rfl, rfl, rfl⟩

/-- A micro-mode branch: a fault, or a new PC (R211). -/
theorem labelBranch_cases (taken : Bool) (name : Text) (s : State) :
    s.labelBranch taken name = s.raise .unresolvedLabel (.label name) ∨
      (∃ k, s.labelIndex name = some k ∧ s.labelBranch taken name = { s with pc := k }) ∨
      s.labelBranch taken name = s.advance := by
  unfold State.labelBranch
  split
  · exact .inl rfl
  · rename_i k hk
    split
    · exact .inr (.inl ⟨k, hk, rfl⟩)
    · exact .inr (.inr rfl)

/-- The shapes of the next states of a line. -/
inductive LineEffect (s : State) : State → Prop where
  | nothing : LineEffect s s.advance
  | halted : LineEffect s s.halt
  | printed (v : Var) : LineEffect s (s.print v).advance
  | moved (v : Var) (b : Byte) : LineEffect s (s.writeVar v b).advance
  | copied (v : Var) (b : Byte) : LineEffect s (s.copyThroughSrc1 b v).advance
  | computed (f : AluFn) (a b : Byte) (v : Var) : LineEffect s (s.aluTo f a b v).advance
  | compared (a b : Byte) : LineEffect s (s.alu .sub a b).advance
  | jumped (taken : Bool) (name : Text) : LineEffect s (s.labelBranch taken name)

theorem execLine_effect {op : LineOp} {s t : State} (h : execLine op s = .next t) : LineEffect s t := by
  cases op with
  | nop => cases h; exact .nothing
  | halt => cases h; exact .halted
  | label name => cases h; exact .nothing
  | print v => cases h; exact .printed v
  | mov v1 v2 => cases h; exact .moved _ _
  | movi v n => cases h; exact .moved _ _
  | cmp v1 v2 => cases h; exact .compared _ _
  | cmpi v n => cases h; exact .compared _ _
  | jmp name => cases h; exact .jumped _ _
  | branch c name => cases h; exact .jumped _ _
  | assign dst p =>
    cases p with
    | var src => cases h; exact .copied _ _
    | imm n => cases h; exact .moved _ _
  | unparseable line => cases h; exact .nothing
  | _ => cases h; exact .computed _ _ _ _

theorem LineEffect.keeps {s t : State} (h : LineEffect s t) :
    t.params = s.params ∧ t.program = s.program ∧ t.ir = s.ir ∧ t.events = s.events := by
  cases h with
  | jumped taken name =>
    rcases labelBranch_cases taken name s with h | ⟨k, -, h⟩ | h <;> rw [h] <;> exact ⟨rfl, rfl, rfl, rfl⟩
  | computed f a b v => rw [State.aluTo_eq]; exact ⟨rfl, rfl, rfl, rfl⟩
  | compared a b => rw [State.alu_eq]; exact ⟨rfl, rfl, rfl, rfl⟩
  | copied v b => rw [State.copyThroughSrc1_eq]; exact ⟨rfl, rfl, rfl, rfl⟩
  | _ => exact ⟨rfl, rfl, rfl, rfl⟩

theorem beginExecute_eq (i : Instr) (s : State) : ∃ evs, beginExecute i s = { s with events := evs } := by
  unfold beginExecute
  split <;> exact ⟨_, rfl⟩

theorem finishExecute_eq (i : Instr) (s : State) : ∃ evs, finishExecute i s = { s with pend := none, events := evs } := by
  unfold finishExecute
  split <;> exact ⟨_, rfl⟩

/-- The induction of a step in both modes: a property `P` of the states between the items of a step, kept by clearing `pend`
and by every EXT, gives a property `Q` of the state after the step, if it gives it at the end of the program, after every
other instruction of ISA mode and after every line of micro mode. -/
theorem step_induct (P Q : State → Prop) (hEnd : ∀ s, P s → Q s.haltPastEnd) (hClear : ∀ s, P s → P s.clearPend)
    (hPrefix : ∀ s w evs imm, s.pc < s.isaItems.length → P s →
      P { s with ir := w, events := evs, pend := some imm, pc := s.pc + 1 })
    (hExec : ∀ s w evs i t, s.mode = .isa → s.pc < s.isaItems.length → P s → isPrefixWord i = false →
      ExecEffect { s with ir := w, events := evs } i t → ∀ evs', Q { t with pend := none, events := evs' })
    (hLine : ∀ s evs t, s.mode = .micro → s.pc < s.microLines.length → P s →
      LineEffect { s with events := evs } t → ∀ evs', Q { t with pend := none, events := evs' })
    {s t : State} (hs : P s) (h : step s = .next t) : Q t := by
  obtain ⟨-, ⟨hm, h⟩ | ⟨hm, h⟩⟩ := step_eq_next h
  · refine isaLoop_induct (fun s => P s ∧ s.mode = .isa) Q (fun s hs => hEnd s hs.1) ?_ ?_ _ _ _ ⟨hClear s hs, hm⟩ h
    · intro s s1 imm hs hf
      obtain ⟨-, hlt, w, evs, rfl⟩ := fetchInstr_cases hf
      exact ⟨hPrefix s w evs imm hlt hs.1, hs.2⟩
    · intro s s1 i t hs hf hp he
      obtain ⟨-, hlt, w, evs, rfl⟩ := fetchInstr_cases hf
      obtain ⟨e1, h1⟩ := beginExecute_eq i { s with ir := w, events := evs }
      obtain ⟨e2, h2⟩ := finishExecute_eq i t
      rw [h2]
      rw [h1] at he
      exact hExec s w e1 i t hs.2 hlt hs.1 hp (exec_effect he) e2
  · rcases microCycle_cases h with ⟨-, rfl⟩ | ⟨line, u, hl, hu, rfl⟩
    · exact hEnd s hs
    · exact hLine s _ u hm (List.getElem?_eq_some_iff.mp hl).1 hs (execLine_effect hu) _

/-- A label that is found stands in the table (R37). -/
theorem lookupLabel_mem {name : Text} {labels : List (Text × Nat)} {k : Nat} (h : lookupLabel name labels = some k) :
    (name, k) ∈ labels := by
  induction labels with
  | nil => cases h
  | cons p ls ih =>
    simp only [lookupLabel] at h
    split at h
    · rename_i hn
      cases h
      exact List.mem_cons.mpr (.inl (by rw [← hn]))
    · exact List.mem_cons_of_mem _ (ih h)

end Sys2Proof.Machine
end

