-- ==== Sys2Proof/Tests/Slice0.lean ====
section
/-!
SUPPORT. Tests. Expected results come from spec/95_test_vectors.md (T<n>, P<n>), spec/opcode_table.json and
spec/30_encoding.md, or are worked out by hand from the rules named. The last part gives every statement that has
hypotheses a state and operands that meet them together.
-/

namespace Sys2Proof.Tests

open Sys2Proof.Machine

/-! Ill-formed terms: the checks of WellFormed refuse them (R82, R83). -/

theorem test_wellFormed_rd_of_mov : (Instr.mov 9 0).wellFormed = false := by decide
theorem test_wellFormed_rs_of_mov : (Instr.mov 8 9).wellFormed = false := by decide
theorem test_wellFormed_rs_is_all_of_arg8 : (Instr.mov 0 0x15).wellFormed = false := by decide
theorem test_wellFormed_rd_of_movi : (Instr.movi 15 0).wellFormed = false := by decide
theorem test_wellFormed_rd_of_neg : (Instr.neg 9).wellFormed = false := by decide
theorem test_wellFormed_rd_of_shl : (Instr.shl 10).wellFormed = false := by decide
theorem test_wellFormed_rs_of_cmp : (Instr.cmp 4 255).wellFormed = false := by decide
theorem test_wellFormed_rd_of_cmpi : (Instr.cmpi 9 0).wellFormed = false := by decide
theorem test_wellFormed_reserved : (Instr.reserved 0 0).wellFormed = false := by decide
theorem test_wellFormed_admits_the_last_register : (Instr.add 8 8).wellFormed = true := by decide

/-! Words written out bit by bit from the table: one for each constructor. -/

theorem test_decode_nop : decodeWord 0b0000000000000000#16 = .nop := by decide
theorem test_decode_nop_ignored_bits : decodeWord 0b0000010110101011#16 = .nop := by decide
theorem test_decode_ext : decodeWord 0b0000111010000000#16 = .ext 0x80 := by decide
theorem test_decode_halt : decodeWord 0b0001101010111100#16 = .halt := by decide
theorem test_decode_mov : decodeWord 0b0010010000000101#16 = .mov 4 5 := by decide
theorem test_decode_movi : decodeWord 0b0011010011111001#16 = .movi 4 0xF9 := by decide
theorem test_decode_add : decodeWord 0b0100010000000101#16 = .add 4 5 := by decide
theorem test_decode_addi : decodeWord 0b0101010011111111#16 = .addi 4 0xFF := by decide
theorem test_decode_sub : decodeWord 0b0110010000000101#16 = .sub 4 5 := by decide
theorem test_decode_subi : decodeWord 0b0111010010000000#16 = .subi 4 0x80 := by decide
theorem test_decode_and : decodeWord 0b1000010000000101#16 = .and 4 5 := by decide
theorem test_decode_or : decodeWord 0b1001010000000101#16 = .or 4 5 := by decide
theorem test_decode_xor : decodeWord 0b1010010000000100#16 = .xor 4 4 := by decide
theorem test_decode_shl : decodeWord 0b1011010011111110#16 = .shl 4 := by decide
theorem test_decode_shr : decodeWord 0b1011010000000001#16 = .shr 4 := by decide
theorem test_decode_neg : decodeWord 0b1100010010101011#16 = .neg 4 := by decide
theorem test_decode_cmp : decodeWord 0b1101010000000101#16 = .cmp 4 5 := by decide
theorem test_decode_jmp : decodeWord 0b1110010111111111#16 = .jmp 0xFF := by decide
theorem test_decode_beq : decodeWord 0b1111000010000000#16 = .beq 0x80 := by decide
theorem test_decode_bne : decodeWord 0b1111000100000010#16 = .bne 2 := by decide
theorem test_decode_bpl : decodeWord 0b1111001000000010#16 = .bpl 2 := by decide
theorem test_decode_bmi : decodeWord 0b1111001100000010#16 = .bmi 2 := by decide
theorem test_decode_bvc : decodeWord 0b1111010000000010#16 = .bvc 2 := by decide
theorem test_decode_bvs : decodeWord 0b1111010100000010#16 = .bvs 2 := by decide
theorem test_decode_bcc : decodeWord 0b1111011000000010#16 = .bcc 2 := by decide
theorem test_decode_bcs : decodeWord 0b1111011100000010#16 = .bcs 2 := by decide
theorem test_decode_reserved : decodeWord 0b1111110100000111#16 = .reserved 5 7 := by decide
theorem test_decode_cmpi : decode [0b0000111000000101#16, 0b1101010011111111#16] = .ok (.cmpi 4 5, []) := by decide
theorem test_decode_ext_before_ext :
    decode [0b0000111000000001#16, 0b0000111000000010#16] = .ok (.ext 1, [0b0000111000000010#16]) := by decide
theorem test_decode_end : decode [] = .error .endOfStream := by decide
theorem test_decode_bytes : decodeBytes [0x34#8, 0xF9#8] = .ok (.movi 4 0xF9, []) := by decide
theorem test_decode_half_word : decodeBytes [0x34#8] = .error .halfWord := by decide
theorem test_decodeTableWord_cmpi : decodeTableWord 32 0xD4000E05 = some (.cmpi 4 5) := by decide
theorem test_decodeTableWord_short : decodeTableWord 16 0xFF = some .nop := by decide
theorem test_encode_cmpi : encode (.cmpi 4 5) = [0x0E05#16, 0xD400#16] := by decide
theorem test_encode_shr : encode (.shr 4) = [0xB401#16] := by decide

/-! One step of ISA mode. -/

/-- A CPU with the words of a program, the PC, the variables `a` and `s`, and the flags in the CPU and the store. -/
def cpu (words : List Word) (pc : Nat) (a s : Byte) (fl : Flags) : State :=
  { State.reset with
    program := .isa (words.map (fun word => { word := word, text := [] })), pc := pc,
    vars := { Vars.zero with a := a, s := s }, flags := fl, mirror := fl }

/-- The flags written `Z N V C`, 1 for true. -/
def zn (z n v c : Nat) : Flags := { z := z == 1, n := n == 1, v := v == 1, c := c == 1 }

/-- The state after one step, if there is one. -/
def after (s : State) : Option State :=
  match step s with
  | .next t => some t
  | .fault _ => none
  | .refused _ => none

/-- The PC, `a`, the flags, their mirrors and the scratch cells after one step. -/
def result (s : State) : Option (Nat × Byte × Flags × Flags × Scratch) :=
  (after s).map (fun t => (t.pc, t.vars.a, t.flags, t.mirror, t.scratch))

/-- The PC, `halted` and the fault record after one step. -/
def stop (s : State) : Option (Nat × Bool × Option FaultRecord) :=
  (after s).map (fun t => (t.pc, t.halted, t.lastFault))

/-- T2. -/
theorem test_add_overflow :
    result (cpu [0x4405#16] 0 0x7F#8 0x01#8 (zn 0 0 0 0)) =
      some (1, 0x80#8, zn 0 1 1 0, zn 0 1 1 0,
        { src1 := 0x7F#8, src2 := 0x01#8, res := 0x80#8, cy := false }) := by decide

/-- T5. -/
theorem test_add_source_is_destination :
    result (cpu [0x4404#16] 0 0x46#8 0x00#8 (zn 0 0 0 0)) =
      some (1, 0x8C#8, zn 0 1 1 0, zn 0 1 1 0,
        { src1 := 0x46#8, src2 := 0x46#8, res := 0x8C#8, cy := false }) := by decide

/-- T7. -/
theorem test_addi_negative :
    result (cpu [0x54FF#16] 0 0x00#8 0x00#8 (zn 0 0 0 0)) =
      some (1, 0xFF#8, zn 0 1 0 0, zn 0 1 0 0,
        { src1 := 0x00#8, src2 := 0xFF#8, res := 0xFF#8, cy := false }) := by decide

/-- T11. -/
theorem test_sub_borrow :
    result (cpu [0x6405#16] 0 0x00#8 0x01#8 (zn 0 0 0 0)) =
      some (1, 0xFF#8, zn 0 1 0 1, zn 0 1 0 1,
        { src1 := 0x00#8, src2 := 0x01#8, res := 0xFF#8, cy := true }) := by decide

/-- T15. -/
theorem test_subi_overflow :
    result (cpu [0x7480#16] 0 0x00#8 0x00#8 (zn 0 0 0 0)) =
      some (1, 0x80#8, zn 0 1 1 1, zn 0 1 1 1,
        { src1 := 0x00#8, src2 := 0x80#8, res := 0x80#8, cy := true }) := by decide

/-- T17. -/
theorem test_neg :
    result (cpu [0xC400#16] 0 0xF9#8 0x00#8 (zn 0 0 0 0)) =
      some (1, 0x07#8, zn 0 0 0 1, zn 0 0 0 1,
        { src1 := 0x00#8, src2 := 0xF9#8, res := 0x07#8, cy := true }) := by decide

/-- T18. -/
theorem test_neg_most_negative :
    result (cpu [0xC400#16] 0 0x80#8 0x00#8 (zn 0 0 0 0)) =
      some (1, 0x80#8, zn 0 1 1 1, zn 0 1 1 1,
        { src1 := 0x00#8, src2 := 0x80#8, res := 0x80#8, cy := true }) := by decide

/-- T20. -/
theorem test_and_clears_v_and_c :
    result (cpu [0x8405#16] 0 0x0C#8 0x0A#8 (zn 0 0 1 1)) =
      some (1, 0x08#8, zn 0 0 0 0, zn 0 0 0 0,
        { src1 := 0x0C#8, src2 := 0x0A#8, res := 0x08#8, cy := false }) := by decide

/-- T25. -/
theorem test_or_negative :
    result (cpu [0x9405#16] 0 0x80#8 0x7F#8 (zn 0 0 0 0)) =
      some (1, 0xFF#8, zn 0 1 0 0, zn 0 1 0 0,
        { src1 := 0x80#8, src2 := 0x7F#8, res := 0xFF#8, cy := false }) := by decide

/-- T23. -/
theorem test_xor_zero :
    result (cpu [0xA404#16] 0 0xFD#8 0x00#8 (zn 0 0 0 0)) =
      some (1, 0x00#8, zn 1 0 0 0, zn 1 0 0 0,
        { src1 := 0xFD#8, src2 := 0xFD#8, res := 0x00#8, cy := false }) := by decide

/-- T26. -/
theorem test_shl_sign_flip :
    result (cpu [0xB400#16] 0 0x40#8 0x00#8 (zn 0 0 0 0)) =
      some (1, 0x80#8, zn 0 1 1 0, zn 0 1 1 0,
        { src1 := 0x40#8, src2 := 0x00#8, res := 0x80#8, cy := false }) := by decide

/-- T27. -/
theorem test_shl_carry :
    result (cpu [0xB400#16] 0 0x80#8 0x00#8 (zn 0 0 0 0)) =
      some (1, 0x00#8, zn 1 0 1 1, zn 1 0 1 1,
        { src1 := 0x80#8, src2 := 0x00#8, res := 0x00#8, cy := true }) := by decide

/-- T34. -/
theorem test_shr_keeps_sign :
    result (cpu [0xB401#16] 0 0x80#8 0x00#8 (zn 0 0 0 0)) =
      some (1, 0xC0#8, zn 0 1 0 0, zn 0 1 0 0,
        { src1 := 0x80#8, src2 := 0x00#8, res := 0xC0#8, cy := false }) := by decide

/-- T34a. -/
theorem test_shr_carry :
    result (cpu [0xB401#16] 0 0x7F#8 0x00#8 (zn 0 0 0 0)) =
      some (1, 0x3F#8, zn 0 0 0 1, zn 0 0 0 1,
        { src1 := 0x7F#8, src2 := 0x00#8, res := 0x3F#8, cy := true }) := by decide

/-- T36: N alone is not less-than. -/
theorem test_cmp_overflow :
    result (cpu [0xD405#16] 0 0x64#8 0x9C#8 (zn 0 0 0 0)) =
      some (1, 0x64#8, zn 0 1 1 1, zn 0 1 1 1,
        { src1 := 0x64#8, src2 := 0x9C#8, res := 0xC8#8, cy := true }) := by decide

/-- T37: one step, two words. -/
theorem test_cmpi :
    result (cpu [0x0E05#16, 0xD400#16] 0 0x03#8 0x00#8 (zn 0 0 0 0)) =
      some (2, 0x03#8, zn 0 1 0 1, zn 0 1 0 1,
        { src1 := 0x03#8, src2 := 0x05#8, res := 0xFE#8, cy := true }) := by decide

/-- T40. -/
theorem test_cmpi_last_ext_wins :
    result (cpu [0x0E01#16, 0x0E02#16, 0xD400#16] 0 0x02#8 0x00#8 (zn 0 0 0 0)) =
      some (3, 0x02#8, zn 1 0 0 0, zn 1 0 0 0,
        { src1 := 0x02#8, src2 := 0x02#8, res := 0x00#8, cy := false }) := by decide

/-- T39, with q = 0. -/
theorem test_cmp_entered_without_its_ext :
    result (cpu [0x0E05#16, 0xD400#16] 1 0x03#8 0x00#8 (zn 0 0 0 0)) =
      some (2, 0x03#8, zn 0 0 0 0, zn 0 0 0 0,
        { src1 := 0x03#8, src2 := 0x00#8, res := 0x03#8, cy := false }) := by decide

/-- T85, step 1. -/
theorem test_ext_is_dropped :
    result (cpu [0x0E05#16, 0x4405#16, 0xD400#16] 0 0x01#8 0x01#8 (zn 0 0 0 0)) =
      some (2, 0x02#8, zn 0 0 0 0, zn 0 0 0 0,
        { src1 := 0x01#8, src2 := 0x01#8, res := 0x02#8, cy := false }) := by decide

/-- T41, T41a. -/
theorem test_nop :
    result (cpu [0x05AB#16] 0 0x03#8 0x09#8 (zn 1 1 1 1)) =
      some (1, 0x03#8, zn 1 1 1 1, zn 1 1 1 1,
        { src1 := 0x00#8, src2 := 0x00#8, res := 0x00#8, cy := false }) := by decide

/-- T43. -/
theorem test_mov :
    result (cpu [0x2405#16] 0 0x03#8 0xF7#8 (zn 1 0 0 1)) =
      some (1, 0xF7#8, zn 1 0 0 1, zn 1 0 0 1,
        { src1 := 0x00#8, src2 := 0x00#8, res := 0x00#8, cy := false }) := by decide

/-- T44. -/
theorem test_movi :
    result (cpu [0x3480#16] 0 0x00#8 0x00#8 (zn 0 0 0 0)) =
      some (1, 0x80#8, zn 0 0 0 0, zn 0 0 0 0,
        { src1 := 0x00#8, src2 := 0x00#8, res := 0x00#8, cy := false }) := by decide

/-- T42a, step 2. -/
theorem test_halt_stays : stop (cpu [0x0000#16, 0x1ABC#16] 1 0x00#8 0x00#8 (zn 0 0 0 0)) =
    some (1, true, none) := by decide

/-- T82. -/
theorem test_halted_past_the_end : stop (cpu [] 0 0x00#8 0x00#8 (zn 0 0 0 0)) =
    some (0, true, none) := by decide

/-- T83. -/
theorem test_ext_last_word : stop (cpu [0x0E05#16] 0 0x00#8 0x00#8 (zn 0 0 0 0)) =
    some (1, true, none) := by decide

/-- T61. -/
theorem test_jmp_backward : stop (cpu [0x0000#16, 0x0000#16, 0xE0FD#16] 2 0x00#8 0x00#8 (zn 0 0 0 0)) =
    some (0, false, none) := by decide

/-- T64. -/
theorem test_beq_flags_clear : stop (cpu [0xF002#16] 0 0x00#8 0x00#8 (zn 0 0 0 0)) =
    some (1, false, none) := by decide

/-- T64. -/
theorem test_beq_flags_set : stop (cpu [0xF002#16] 0 0x00#8 0x00#8 (zn 1 1 1 1)) =
    some (3, false, none) := by decide

/-- T65. -/
theorem test_bne_flags_clear : stop (cpu [0xF102#16] 0 0x00#8 0x00#8 (zn 0 0 0 0)) =
    some (3, false, none) := by decide

/-- T65. -/
theorem test_bne_flags_set : stop (cpu [0xF102#16] 0 0x00#8 0x00#8 (zn 1 1 1 1)) =
    some (1, false, none) := by decide

/-- T66. -/
theorem test_bpl_flags_clear : stop (cpu [0xF202#16] 0 0x00#8 0x00#8 (zn 0 0 0 0)) =
    some (3, false, none) := by decide

/-- T66. -/
theorem test_bpl_flags_set : stop (cpu [0xF202#16] 0 0x00#8 0x00#8 (zn 1 1 1 1)) =
    some (1, false, none) := by decide

/-- T67. -/
theorem test_bmi_flags_clear : stop (cpu [0xF302#16] 0 0x00#8 0x00#8 (zn 0 0 0 0)) =
    some (1, false, none) := by decide

/-- T67. -/
theorem test_bmi_flags_set : stop (cpu [0xF302#16] 0 0x00#8 0x00#8 (zn 1 1 1 1)) =
    some (3, false, none) := by decide

/-- T68. -/
theorem test_bvc_flags_clear : stop (cpu [0xF402#16] 0 0x00#8 0x00#8 (zn 0 0 0 0)) =
    some (3, false, none) := by decide

/-- T68. -/
theorem test_bvc_flags_set : stop (cpu [0xF402#16] 0 0x00#8 0x00#8 (zn 1 1 1 1)) =
    some (1, false, none) := by decide

/-- T69. -/
theorem test_bvs_flags_clear : stop (cpu [0xF502#16] 0 0x00#8 0x00#8 (zn 0 0 0 0)) =
    some (1, false, none) := by decide

/-- T69. -/
theorem test_bvs_flags_set : stop (cpu [0xF502#16] 0 0x00#8 0x00#8 (zn 1 1 1 1)) =
    some (3, false, none) := by decide

/-- T72: V = 0, C = 1. -/
theorem test_bcc_reads_v : stop (cpu [0xF602#16] 0 0x00#8 0x00#8 (zn 0 0 0 1)) =
    some (3, false, none) := by decide

/-- T70. -/
theorem test_bcc_v_set : stop (cpu [0xF602#16] 0 0x00#8 0x00#8 (zn 1 1 1 1)) =
    some (1, false, none) := by decide

/-- T72: V = 0, C = 1. -/
theorem test_bcs_reads_v : stop (cpu [0xF702#16] 0 0x00#8 0x00#8 (zn 0 0 0 1)) =
    some (1, false, none) := by decide

/-- T71. -/
theorem test_bcs_v_set : stop (cpu [0xF702#16] 0 0x00#8 0x00#8 (zn 1 1 1 1)) =
    some (3, false, none) := by decide

/-- T77. -/
theorem test_reserved_condition : stop (cpu [0xF800#16] 0 0x00#8 0x00#8 (zn 1 1 1 1)) =
    some (0, true, some { kind := .malformedInstruction, pc := 0, info := .text [] }) := by decide

/-- T75. -/
theorem test_register_nine : stop (cpu [0x3905#16] 0 0x00#8 0x00#8 (zn 0 0 0 0)) =
    some (0, true, some { kind := .malformedInstruction, pc := 0, info := .text [] }) := by decide

/-- T76. -/
theorem test_source_register_twenty_one : stop (cpu [0x2415#16] 0 0x00#8 0x00#8 (zn 0 0 0 0)) =
    some (0, true, some { kind := .malformedInstruction, pc := 0, info := .text [] }) := by decide

/-- T79. -/
theorem test_negative_target : stop (cpu [0x0000#16, 0xE0FD#16] 1 0x00#8 0x00#8 (zn 0 0 0 0)) =
    some (1, true, some { kind := .branchTargetNegative, pc := 1, info := .target (-1) }) := by decide

/-- T42, step 2: a halted CPU has no successor, and `step()` returns false and changes nothing. -/
theorem test_halted_step :
    step { State.reset with halted := true } = .fault .halted ∧
      stepOp { State.reset with halted := true } = (false, { State.reset with halted := true }) :=
  ⟨rfl, rfl⟩

/-- T9 with `C_SUB = not_borrow`: only C is inverted. -/
theorem test_sub_not_borrow :
    (after { cpu [0x6405#16] 0 5 5 (zn 0 0 0 0) with params := { Params.default with cSub := .notBorrow } }).map
      State.flags = some (zn 1 0 0 1) := by decide

/-- T20 with `LOGIC_VC = unchanged`: V and C stay. -/
theorem test_and_unchanged :
    (after { cpu [0x8405#16] 0 12 10 (zn 0 0 1 1) with params := { Params.default with logicVC := .unchanged } }).map
      State.flags = some (zn 0 0 1 1) := by decide

/-- The phase events of T37 and, for a decode fault, of T75 (R143). -/
theorem test_events :
    (after (cpu [0x0E05#16, 0xD400#16] 0 3 0 (zn 0 0 0 0))).map State.events =
      some [.fetchWord 0 0x0E05, .decodeWord 0x0 0xE 0x05, .fetchWord 1 0xD400, .decodeWord 0xD 0x4 0x00, .execute,
        .writeback] ∧
    (after (cpu [0x3905#16] 0 3 0 (zn 0 0 0 0))).map State.events =
      some [.fetchWord 0 0x3905, .decodeWord 0x3 0x9 0x05] := by decide

/-- The word that `withFetchWord` places is the one that the next step runs, the first after reset and at any PC. -/
theorem test_withFetchWord :
    (after (State.reset.withFetchWord 16 0x3480)).map (fun t => t.vars.a) = some 0x80#8 ∧
    (after (State.reset.withFetchWord 32 0xD4000E00)).map (fun t => (t.pc, t.flags.z)) = some (2, true) ∧
    (after ({ State.reset with pc := 3, halted := true }.withFetchWord 16 0x3480)).map (fun t => (t.pc, t.vars.a)) =
      some (4, 0x80#8) := by decide

/-! Micro mode and the toolchain. -/

/-- Source lines as texts. -/
def source (lines : List String) : List Text := lines.map String.toList

/-- A CPU with a micro-mode program. -/
def micro (lines : List String) (labels : List (Text × Nat)) (a s : Byte) : State :=
  { State.reset with program := .micro (source lines) labels, vars := { Vars.zero with a := a, s := s } }

/-- T45: PRINT reports and changes nothing else. -/
theorem test_print : (after (micro ["PRINT a"] [] 0xF9 0)).map (fun t => (t.pc, t.output, t.vars.a)) =
    some (1, [(.a, 0xF9#8)], 0xF9#8) := by decide

/-- T37 in micro mode: CMPI is one line. -/
theorem test_cmpi_line : result (micro ["CMPI a,#5"] [] 3 0) =
    some (1, 3#8, zn 0 1 0 1, zn 0 1 0 1, { src1 := 3, src2 := 5, res := 0xFE, cy := true }) := by decide

/-- T50: an immediate is wrapped. -/
theorem test_assign_literal : result (micro ["a=300"] [] 0 0) =
    some (1, 44#8, zn 0 0 0 0, zn 0 0 0 0, Scratch.zero) := by decide

/-- T51: a copy goes through SRC1. -/
theorem test_assign_variable : result (micro ["a=s"] [] 0 9) =
    some (1, 9#8, zn 0 0 0 0, zn 0 0 0 0, { Scratch.zero with src1 := 9 }) := by decide

/-- T53 and T54: which operand stands in SRC1. -/
theorem test_assign_sum :
    result (micro ["a=1+a"] [] 5 0) =
      some (1, 6#8, zn 0 0 0 0, zn 0 0 0 0, { src1 := 5, src2 := 1, res := 6, cy := false }) ∧
    result (micro ["a=s+a"] [] 5 7) =
      some (1, 12#8, zn 0 0 0 0, zn 0 0 0 0, { src1 := 7, src2 := 5, res := 12, cy := false }) := by decide

/-- T57: the operator is the first one after a complete operand. -/
theorem test_assign_difference : result (micro ["a=3--2"] [] 0 0) =
    some (1, 5#8, zn 0 0 0 1, zn 0 0 0 1, { src1 := 3, src2 := 0xFE, res := 5, cy := true }) := by decide

/-- T95: lines that match no form run as NOP. -/
theorem test_unparseable :
    parseLine "FOO a".toList = .unparseable "FOO a".toList ∧ parseLine "a=b".toList = .unparseable "a=b".toList ∧
    parseLine "ADD a,#5".toList = .unparseable "ADD a,#5".toList ∧
    (after (micro ["MOVI a,s"] [] 0 0)).map State.pc = some 1 := by decide

/-- T86: an undeclared label faults although the branch is not taken. -/
theorem test_unresolved_label : stop (micro ["BEQ nowhere", "HALT"] [] 0 0) =
    some (0, true, some { kind := .unresolvedLabel, pc := 0, info := .label "nowhere".toList }) := by decide

/-- The words of an assembled program. -/
def assembledWords (lines : List String) : Except LoadError (List Word) :=
  (assemble false (cleanLines (source lines))).map (fun items => items.map IsaItem.word)

/-- P1. -/
theorem test_assemble_loop :
    assembledWords ["loop: CMPI a,#0", "BEQ done", "a=a-1", "JMP loop", "done: HALT"] =
      .ok [0x0E00#16, 0xD400#16, 0xF002#16, 0x7401#16, 0xE0FB#16, 0x1000#16] := by decide

/-- P4: the general greater-than sequence. -/
theorem test_assemble_if :
    assembledWords ["q=100", "w=-100", "IF q > w THEN", "e=1", "ELSE", "e=2", "END", "HALT"] =
      .ok [0x3064#16, 0x319C#16, 0xD001#16, 0xF402#16, 0xF205#16, 0xE002#16, 0xF303#16, 0xF002#16, 0x3201#16,
        0xE001#16, 0x3202#16, 0x1000#16] := by decide

/-- T47, T52, T55, T56: lowered assignments. -/
theorem test_assemble_assignments :
    assembledWords ["x=a-x", "e=a+s", "a=0-a", "a=2+3"] =
      .ok [0xC800#16, 0x4804#16, 0x2204#16, 0x4205#16, 0xC400#16, 0x3402#16, 0x5403#16] := by decide

/-- T92 and T93. -/
theorem test_load_errors :
    assembledWords ["JMP nowhere", "HALT"] = .error (.undefinedLabel "nowhere".toList) ∧
    assembledWords ["x: NOP", "x: HALT"] = .error (.duplicateLabel "x".toList) := by decide

/-- T95 with `STRICT_PARSE`. -/
theorem test_strict_parse :
    assemble true (source ["FOO a", "HALT"]) = .error (.unparseableLine "FOO a".toList) := by decide

/-- The reach of T88 to T91, on the offsets. -/
theorem test_branch_reach :
    branchOffset 128 0 = 127 ∧ branchOffset 129 0 = 128 ∧ branchOffset 0 127 = -128 ∧ branchOffset 0 128 = -129 ∧
    fixItem [("far".toList, 128)] 0 { word := 0xE000, text := [], site := some "far".toList } =
      .ok { word := 0xE07F, text := [] } ∧
    fixItem [("far".toList, 129)] 0 { word := 0xE000, text := [], site := some "far".toList } =
      .error (.branchOutOfRange 0 128) := by decide

/-- T97: an IF that is never closed. -/
theorem test_preprocess_unclosed :
    preprocess (source ["IF a < 5 THEN", "a=1"]) =
      source ["CMPI a,5", "BVC __IF0_V0", "BMI __IF0_ELSE", "JMP __IF0_CONT", "__IF0_V0:", "BPL __IF0_ELSE",
        "__IF0_CONT:", "a=1", "__IF0_ELSE:", "__IF0_END:"] := by decide

/-- T98: the zero fast path, and a second ELSE. -/
theorem test_preprocess_else :
    preprocess (source ["IF a <= 0 THEN", "a=1", "ELSE", "a=2", "ELSE", "a=3", "END", "HALT"]) =
      source ["CMPI a,0", "BEQ __IF0_CONT", "BPL __IF0_ELSE", "__IF0_CONT:", "a=1", "JMP __IF0_END", "__IF0_ELSE:",
        "a=2", "ELSE", "a=3", "__IF0_END:", "HALT"] := by decide

/-- P3, micro mode: the lines and the labels of a load. -/
theorem test_load_micro :
    buildProgram Params.default .micro (source ["a=-7", "IF a<#0 THEN", "a=0-a", "END", "HALT"]) =
      .ok (.micro (source ["a=-7", "CMPI a,#0", "BPL __IF0_ELSE", "a=0-a", "HALT"])
        [("__IF0_ELSE".toList, 4), ("__IF0_END".toList, 4)]) := by decide

/-! Witnesses: each shows that the hypotheses of the statement it names can be met, each clause at a boundary value. -/

/-- Of DecodeReadsBackEncode: an EXT that another EXT follows, an EXT at the end, and a CMP that anything follows. -/
theorem witness_DecodeReadsBackEncode :
    (∀ imm w ws rd rs, Instr.ext 5 = .ext imm → [0x0E02#16] = w :: ws → decodeWord w ≠ .cmp rd rs) ∧
    (∀ imm w ws rd rs, Instr.ext 5 = .ext imm → ([] : List Word) = w :: ws → decodeWord w ≠ .cmp rd rs) ∧
    (∀ imm w ws rd rs, Instr.cmp 8 8 = .ext imm → [0xD405#16] = w :: ws → decodeWord w ≠ .cmp rd rs) := by
  refine ⟨fun imm w ws rd rs _ h => ?_, fun imm w ws rd rs _ h => ?_, fun imm w ws rd rs h => ?_⟩
  · obtain ⟨rfl, -⟩ := List.cons.inj h
    rw [show decodeWord 0x0E02#16 = .ext 2 from by decide]
    exact Instr.noConfusion
  · cases h
  · cases h

theorem witness_OpcodeZeroIsExtOrNop :
    op4 0x0EFF#16 = 0#4 ∧ dst4 0x0EFF#16 = 0xE#4 ∧ op4 0x0FFF#16 = 0#4 ∧ dst4 0x0FFF#16 ≠ 0xE#4 := by decide

theorem witness_IgnoredBitsTakeNoPart :
    op4 0x1ABC#16 = 0x1#4 ∧ op4 0xC4AB#16 = 0xC#4 ∧ op4 0xB4FE#16 = 0xB#4 ∧ op4 0xE5FF#16 = 0xE#4 ∧
    op4 0x0E05#16 = 0#4 ∧ dst4 0x0E05#16 = 0xE#4 ∧ op4 0xD4FF#16 = 0xD#4 := by decide

theorem witness_RegisterIdsNameTheVariables : 8 < (9#4).toNat ∧ 8 < (9#8).toNat := by decide

/-- The longest reaches, forward and backward (T88, T90). -/
theorem witness_DisplacementReachesTarget :
    (State.reset.pc = 0 ∧ -128 ≤ branchOffset 128 0 ∧ branchOffset 128 0 ≤ 127) ∧
    (({ State.reset with pc := 127 } : State).pc = 127 ∧ -128 ≤ branchOffset 0 127 ∧ branchOffset 0 127 ≤ 127) := by
  decide

theorem witness_CellReadsLastWrite :
    (State.reset.cellSet (.var .x) 300).isSome ∧ (State.reset.cellSet (.scratch .res 7) 1).isSome ∧
    (State.reset.cellSet .cy 1).isSome ∧ (State.reset.cellSet (.flag .c) 0).isSome := by decide

theorem witness_NopOnlyAdvancesThePc : op4 0x0F00#16 = 0#4 ∧ dst4 0x0F00#16 ≠ 0xE#4 := by decide

/-- Of MovesCopyAndLoad, AddWritesWrappedSum, SubWritesWrappedDifference, NegWritesWrappedNegation,
LogicWritesBitwiseResult, ShlDoublesWithWrap and ShrHalvesKeepingSign: the first and the last register. -/
theorem witness_registers : rdVar 8 = some .x ∧ rsVar 8 = some .x ∧ rdVar 0 = some .q ∧ rsVar 0 = some .q ∧
    State.reset.readVar .x = 0#8 := by decide

/-- Of CompareWritesFlagsOnly: without and with a pending immediate. -/
theorem witness_CompareWritesFlagsOnly :
    rdVar 8 = some .x ∧ State.reset.readVar .x = 0#8 ∧ State.reset.pend = none ∧ rsVar 8 = some .x ∧
    ({ State.reset with pend := some 0x80 } : State).pend = some 0x80#8 := by decide

/-- Of JmpGoesToItsTarget and ConditionalBranchesTestTheirFlag: the target 0 (T61). -/
theorem witness_target_zero :
    (({ State.reset with pc := 2 } : State).pc : Int) + 1 + (0xFD#8).toInt = ((0 : Nat) : Int) := by decide

/-- The target -1 (T79), and a branch that is taken and one that is not. -/
theorem witness_NegativeTargetFaultsWhenTaken :
    (({ State.reset with pc := 1 } : State).pc : Int) + 1 + (0xFD#8).toInt = -1 ∧ (-1 : Int) < 0 ∧
    condHolds .ne State.reset.flags = true ∧ condHolds .eq State.reset.flags = false := by decide

theorem witness_InvalidRegisterFaults :
    (Instr.mov 9 0).wellFormed = false ∧ (Instr.add 8 9).wellFormed = false ∧
    (Instr.reserved 0 0).wellFormed = false ∧ 8 < (9#4).toNat ∧ (8 < (9#8).toNat ∧ State.reset.pend = none) ∧
    (∀ rd rs, Instr.mov 9 0 ≠ .cmp rd rs) ∧ (∀ rd imm, Instr.mov 9 0 ≠ .cmpi rd imm) :=
  ⟨by decide, by decide, by decide, by decide, by decide, fun _ _ => Instr.noConfusion, fun _ _ => Instr.noConfusion⟩

/-- Of FaultsArePrecise: a step from a boundary that records a fault, one of each kind. -/
theorem witness_FaultsArePrecise :
    (cpu [0x3905#16] 0 0 0 (zn 0 0 0 0)).boundary = true ∧
    ((after (cpu [0x0E05#16, 0x3905#16] 0 0 0 (zn 0 0 0 0))).bind State.lastFault).map FaultRecord.pc = some 1 ∧
    ((after (cpu [0xE080#16] 0 0 0 (zn 0 0 0 0))).bind State.lastFault).isSome ∧
    ((after (micro ["JMP nowhere"] [] 0 0)).bind State.lastFault).isSome := by decide

/-- Of PrimitiveLinesMatchTheirInstructions: a line of the list, CMP with no immediate pending, and the operands of CMPI. -/
theorem witness_PrimitiveLinesMatchTheirInstructions :
    (LineOp.mov .q .x) ∈ [LineOp.nop, .halt, .mov .q .x] ∧ State.reset.pend = none ∧
    State.reset.readVar .x = 0#8 ∧ byteOfInt 300 = 44#8 := by decide

/-- Of AssignVariableCopiesThroughSrc1 and AssignSumAndDifference. -/
theorem witness_AssignSumAndDifference :
    State.reset.readVar .a = 0#8 ∧ operandValue (.imm 300) State.reset = 44#8 ∧
    operandValue (.var .a) State.reset = 0#8 := by decide

theorem witness_BranchLinesGoToTheirLabel :
    (micro ["JMP end", "HALT"] [("end".toList, 2)] 0 0).program =
      .micro (source ["JMP end", "HALT"]) [("end".toList, 2)] ∧
    lookupLabel "end".toList [("end".toList, 2)] = some 2 ∧ lookupLabel "nowhere".toList [("end".toList, 2)] = none := by
  decide

/-- The words that a step of `cpu words` finds from `pc` on. -/
def wordsFrom (words : List Word) (pc : Nat) : List Word := (cpu words pc 0 0 (zn 0 0 0 0)).wordsAtPc

/-- Of StepRunsTheDecodedInstruction, its three clauses; the last word of a program, a pair, an EXT that is dropped. -/
theorem witness_StepRunsTheDecodedInstruction :
    (wordsFrom [0x0000#16, 0x1000#16] 1 = [0x1000#16] ∧ decode [0x1000#16] = .ok (.halt, [])) ∧
    (wordsFrom [0x0E05#16, 0xD400#16] 0 = [0x0E05#16, 0xD400#16] ∧
      decode [0x0E05#16, 0xD400#16] = .ok (.cmpi 4 5, [])) ∧
    (wordsFrom [0x0E05#16] 0 = [0x0E05#16] ∧ decode [0x0E05#16] = .ok (.ext 5, [])) ∧
    (cpu [0x0E05#16] 0 0 0 (zn 0 0 0 0)).halted = false := by decide

theorem witness_StepRunsTheParsedLine :
    (micro ["HALT"] [] 0 0).halted = false ∧ (source ["HALT"])[0]? = some "HALT".toList := by decide

theorem witness_IsaStepIsThePseudoCode : State.reset.halted = false ∧ State.reset.mode = .isa := by decide

theorem witness_ExtWithoutCompareIsDropped :
    wordsFrom [0x0E05#16, 0x3407#16] 0 = [0x0E05#16, 0x3407#16] ∧
    decode [0x0E05#16, 0x3407#16] = .ok (.ext 5, [0x3407#16]) := by decide

/-- Of FetchPastEndHalts, at the first index past the end in each mode. -/
theorem witness_FetchPastEndHalts :
    (State.reset.halted = false ∧ State.reset.programLength ≤ State.reset.pc) ∧
    (cpu [0x0000#16] 1 0 0 (zn 0 0 0 0)).programLength ≤ 1 ∧ (micro [] [] 0 0).programLength ≤ 0 := by decide

theorem witness_RunningCpuAlwaysSteps :
    State.reset.halted = false ∧ ({ State.reset with halted := true } : State).halted = true := by decide

/-- Of EveryStepEndsAtABoundary, EveryStepKeepsTheMirrors, EveryStepKeepsThePcInReach, NoStepChangesTheProgram and
NothingReadsCarryOrMirrors: their premises hold at reset and, the PC at the end of its reach, in a state that still steps; a pending
immediate and a halted CPU's fault do not break the premise of EveryStepEndsAtABoundary. -/
theorem witness_invariants :
    (State.reset.lastFault.isNone || State.reset.halted) = true ∧ State.reset.mirrored = true ∧
    State.reset.labelsInRange = true ∧ (cpu [0x0000#16] 128 0 0 (zn 0 0 0 0)).pcInReach = true ∧
    (after State.reset).isSome ∧ (after (cpu [0x0000#16] 128 0 0 (zn 0 0 0 0))).isSome ∧
    (micro ["JMP end"] [("end".toList, 1)] 0 0).labelsInRange = true ∧
    (after (micro ["JMP end"] [("end".toList, 1)] 0 0)).isSome ∧
    (after { cpu [0x0000#16] 0 0 0 (zn 0 0 0 0) with pend := some 1 }).isSome := by decide

theorem witness_PreprocessorPassesPlainLines :
    ∀ line ∈ source ["ELSE", "END", "NOP", "IF 5 < a THEN"], parseIf line = none := by decide

theorem witness_LoweredWordsAreWellFormed :
    lowerLine (.assignSub .x (.var .a) (.var .x)) = [.neg 8, .add 8 4] := by decide

/-- Of LoweredAssignmentsComputeTheSameValue: an operand of each of the three forms its flags clause admits. -/
theorem witness_LoweredAssignmentsComputeTheSameValue :
    (Operand.var .x = .var .x) ∧ (Operand.imm 1 ≠ .var .x) ∧ isZeroImm (.imm 256) = true := by decide

/-- An assembled program with a branch to its end. -/
theorem witness_AssembledBranchesStayInTheProgram :
    assembledWords ["JMP end", "end:"] = .ok [0xE000#16] ∧ op4 0xE000#16 = 0xE#4 ∧
    assembledWords ["BEQ end", "end:"] = .ok [0xF000#16] ∧ op4 0xF000#16 = 0xF#4 := by decide

/-- Of PassTwoPutsEveryOffsetIn: the longest reach; one item further and a label that is not declared, each as the first
error, at the first item and after an item without an error. -/
theorem witness_PassTwoPutsEveryOffsetIn :
    pass2 [("far".toList, 128)] 0 [{ word := 0xE000, text := [], site := some "far".toList }] =
      .ok [{ word := 0xE07F, text := [] }] ∧
    (lookupLabel "far".toList [("far".toList, 129)] = some 129 ∧ 127 < branchOffset 129 0) ∧
    (lookupLabel "far".toList [("far".toList, 130)] = some 130 ∧ 127 < branchOffset 130 1) ∧
    lookupLabel "far".toList [] = none ∧
    pass2 [] 0 [] = .ok [] ∧ pass2 [] 0 [{ word := 0x1000, text := [], site := none }] =
      .ok [{ word := 0x1000, text := [] }] := by decide

/-- A load that succeeds and one that fails. -/
theorem witness_LoadInstallsAProgramOrChangesNothing :
    ((State.reset.loadProgram (source ["HALT"])).map State.program) =
      .ok (.isa [{ word := 0x1000, text := "HALT".toList }]) ∧
    State.reset.loadProgram (source ["JMP nowhere"]) = .error (.undefinedLabel "nowhere".toList) := by decide

end Sys2Proof.Tests
end

/-! The variable cells: what a write leaves to be read, and the range of every read (R23). -/

namespace Sys2Proof.Machine

/-- Settles O9: a read after the write gives the byte stored, whose value is the `wrap8` of the integer; every variable is
a byte, so its value is in range. -/
theorem writtenVariableIsWrapped : Obligations.WrittenVariableIsWrapped := by
  intro s v n
  constructor
  · rw [State.readVar_writeVar_same, toInt_byteOfInt]
  · intro u
    exact toInt_range (s.readVar u)

end Sys2Proof.Machine

/-! The displacement of a branch (R104) and the words of opcode 0 (R76). -/

namespace Sys2Proof.Machine

/-- `wrap8` leaves alone a number that a signed byte can hold (R10). -/
theorem wrap8_of_signed_range {n : Int} (hlow : -128 ≤ n) (hhigh : n ≤ 127) : wrap8 n = n := by
  unfold wrap8
  omega

/-- The pattern stored for an integer is its `u8`, compared as integers (R10, R73). -/
theorem byteOfInt_toNat_cast (n : Int) : ((byteOfInt n).toNat : Int) = u8 n := by
  rw [byteOfInt_toNat]
  exact Int.toNat_of_nonneg (Int.emod_nonneg n (by decide))

/-- The target of a branch is counted from the item after it (R104). -/
theorem branchTarget_eq (disp : Byte) (s : State) : branchTarget disp s = (s.pc : Int) + 1 + disp.toInt := rfl

/-- The offset to a target leads back to it from the item after the branch (R104). -/
theorem add_branchOffset (target index : Nat) : (index : Int) + 1 + branchOffset target index = target := by
  unfold branchOffset
  omega

/-- Settles O8: an offset in the signed range survives being stored as a byte, so counting the stored byte from the item
after the branch arrives at the target. -/
theorem displacementReachesTarget : Obligations.DisplacementReachesTarget := by
  intro target index s hpc hlow hhigh
  have hstored : (byteOfInt (branchOffset target index)).toInt = branchOffset target index := by
    rw [toInt_byteOfInt, wrap8_of_signed_range hlow hhigh]
  refine ⟨rfl, byteOfInt_toNat_cast _, ?_, ?_⟩
  · rw [branchTarget_eq, hpc]
  · rw [branchTarget_eq, hpc, hstored, add_branchOffset]

/-- Opcode 0 with any `dst4` but the sentinel is NOP (R76); `decodeWord_ext` is the other half. -/
theorem decodeWord_nop_of_not_sentinel {w : Word} (hop : op4 w = 0#4) (hdst : dst4 w ≠ 0xE#4) :
    decodeWord w = .nop := by
  rw [decodeWord, hop]
  exact if_neg hdst

/-- Settles O4, by the two halves of opcode 0: the sentinel gives EXT, any other `dst4` NOP. -/
theorem opcodeZeroIsExtOrNop : Obligations.OpcodeZeroIsExtOrNop := by
  intro w hop
  constructor
  · intro hdst
    exact (decodeWord_ext w (arg8 w)).mpr ⟨hop, hdst, rfl⟩
  · exact decodeWord_nop_of_not_sentinel hop

end Sys2Proof.Machine

/-! The value of a byte, bit by bit: packing and unpacking a scratch register (R152, R153). -/

namespace Sys2Proof.Machine

/-- A scratch cell holds a binary digit of its register's pattern (R39). -/
theorem bitValue_getLsbD (b : Byte) (k : Nat) : bitValue (b.getLsbD k) = (b.toNat : Int) / 2 ^ k % 2 := by
  have hbit : b.getLsbD k = decide (b.toNat / 2 ^ k % 2 = 1) := Nat.testBit_eq_decide_div_mod_eq
  have hdigit : b.toNat / 2 ^ k % 2 = 0 ∨ b.toNat / 2 ^ k % 2 = 1 := Nat.mod_two_eq_zero_or_one _
  have hcast : ((b.toNat / 2 ^ k % 2 : Nat) : Int) = (b.toNat : Int) / 2 ^ k % 2 := by push_cast; rfl
  rw [hbit, ← hcast]
  obtain h | h := hdigit <;> rw [h] <;> rfl

/-- The pattern of a byte's value is the byte itself (R10). -/
theorem u8_toInt (b : Byte) : u8 b.toInt = b.toNat := by
  have hlt := b.isLt
  rw [u8, BitVec.toInt_eq_toNat_cond]
  split <;> omega

/-- The signed value of a byte is `s8` of its pattern (R10). -/
theorem toInt_eq_s8 (b : Byte) : b.toInt = s8 b.toNat := by
  have hlt := b.isLt
  rw [s8, BitVec.toInt_eq_toNat_cond]
  split <;> split <;> omega

/-- The eight binary digits of a byte, each with its weight, add up to its pattern (R153). -/
theorem weighted_cells_eq_toNat (sc : Scratch) (r : ScratchReg) :
    bitValue (sc.getCell r 0) + 2 * bitValue (sc.getCell r 1) + 4 * bitValue (sc.getCell r 2) +
      8 * bitValue (sc.getCell r 3) + 16 * bitValue (sc.getCell r 4) + 32 * bitValue (sc.getCell r 5) +
      64 * bitValue (sc.getCell r 6) + 128 * bitValue (sc.getCell r 7) = (sc.get r).toNat := by
  have hlt := (sc.get r).isLt
  simp only [Scratch.getCell, bitValue_getLsbD, Fin.coe_ofNat_eq_mod, Nat.reduceMod]
  omega

/-- Unpacking puts bit `k` of the value in cell `k` (R152). -/
theorem bitValue_getCell_unpack (r : ScratchReg) (v : Byte) (s : State) (k : Fin 8) :
    bitValue ((s.runMicro (unpackOps r v)).scratch.getCell r k) = bitOf v.toInt k := by
  rw [runMicro_unpackOps, Scratch.getCell, Scratch.set_get, bitValue_getLsbD, bitOf, u8_toInt]

/-- Settles O12: the weighted digits of a register add up to its pattern, whose `s8` is its value; the micro-ops of
`unpack` write the pattern of the value, digit by digit. -/
theorem packOfUnpackIsTheValue : Obligations.PackOfUnpackIsTheValue := by
  constructor
  · intro sc r
    rw [weighted_cells_eq_toNat, toInt_eq_s8]
  · intro s r v
    exact ⟨runMicro_unpackOps r v s, bitValue_getCell_unpack r v s⟩

end Sys2Proof.Machine

/-! The result of an ALU function and the flags read from it (R158, R159, R166). -/

namespace Sys2Proof.Machine

/-- `RES` after an ALU function is its native result (R166). -/
theorem alu_get_res (f : AluFn) (a b : Byte) (s : State) : (s.alu f a b).scratch.get .res = nativeResult f a b := by
  rw [State.alu_eq]
  rfl

/-- Settles O13: the chain of table rows leaves the native result in `RES`, and the value of a sum or difference of
bytes is the `wrap8` of the sum or difference of their values. -/
theorem rippleEqualsNativeArithmetic : Obligations.RippleEqualsNativeArithmetic := by
  intro s a b
  constructor
  · rw [alu_get_res, nativeResult, toInt_add_eq]
  · rw [alu_get_res, nativeResult, toInt_sub_eq]

/-- Every ALU function writes Z from the scratch cells it leaves, the logic functions included (R158, R162). -/
theorem alu_flags_z (f : AluFn) (a b : Byte) (s : State) : (s.alu f a b).flags.z = flagZ (s.alu f a b).scratch := by
  rw [State.alu_eq]
  rfl

/-- Every ALU function writes N from the scratch cells it leaves, the logic functions included (R159, R162). -/
theorem alu_flags_n (f : AluFn) (a b : Byte) (s : State) : (s.alu f a b).flags.n = flagN (s.alu f a b).scratch := by
  rw [State.alu_eq]
  rfl

/-- The formula of Z is true exactly when each of the eight `RES` cells is 0 (R158). -/
theorem flagZ_iff_cells (sc : Scratch) : flagZ sc = true ↔ ∀ k : Fin 8, sc.getCell .res k = false := by
  rw [flagZ, beq_iff_eq]
  constructor
  · intro hzero k
    rw [Scratch.getCell, Scratch.get, hzero, BitVec.getLsbD_zero]
  · intro hcells
    refine BitVec.eq_of_getLsbD_eq fun i hi => ?_
    rw [BitVec.getLsbD_zero]
    exact hcells ⟨i, hi⟩

/-- The formula of Z is true exactly when the value in `RES` is 0 (R158). -/
theorem flagZ_iff_value (sc : Scratch) : flagZ sc = true ↔ sc.res.toInt = 0 := by
  rw [flagZ, beq_zero_eq, decide_eq_true_eq]

/-- The formula of N is true exactly when the value in `RES` is negative (R159). -/
theorem flagN_iff_value (sc : Scratch) : flagN sc = true ↔ sc.res.toInt < 0 := by
  rw [flagN, getLsbD_seven, decide_eq_true_eq]

/-- Settles O14: the flags are the formulas of Z and N over the scratch cells the function leaves, and what these say of
`RES` does not depend on the function. -/
theorem zeroAndNegativeFlagsOfEveryFunction : Obligations.ZeroAndNegativeFlagsOfEveryFunction := by
  intro f s t a b ht
  have hz : t.flags.z = flagZ t.scratch := ht ▸ alu_flags_z f a b s
  have hn : t.flags.n = flagN t.scratch := ht ▸ alu_flags_n f a b s
  rw [hz, hn]
  exact ⟨flagZ_iff_cells t.scratch, flagZ_iff_value t.scratch, rfl, flagN_iff_value t.scratch⟩

end Sys2Proof.Machine

/-! NOP in both modes and the lines that match no form (R93, R170). -/

namespace Sys2Proof.Machine

/-- In ISA mode NOP ends in the outcome `Next` and does nothing else (R140, R170). -/
theorem exec_nop (s : State) : exec .nop s = .next s.advance := rfl

/-- The micro-mode line NOP ends in the outcome `Next` and does nothing else (R170). -/
theorem execLine_nop (s : State) : execLine .nop s = .next s.advance := rfl

/-- A line that matches no form runs as the line NOP, whatever its text (R93, R170). -/
theorem execLine_unparseable (line : Text) (s : State) : execLine (.unparseable line) s = execLine .nop s := rfl

/-- The Line Parser reads the text of NOP as the line NOP (R93). -/
theorem parseLine_nop_text : parseLine "NOP".toList = .nop := by decide

/-- Settles O16: every opcode-0 word but EXT decodes to NOP, a line that matches no form runs as the line NOP, and both
NOPs only advance. -/
theorem nopOnlyAdvancesThePc : Obligations.NopOnlyAdvancesThePc := by
  intro s
  refine ⟨?_, parseLine_nop_text, execLine_nop s, ?_⟩
  · intro w hop hdst
    rw [decodeWord_nop_of_not_sentinel hop hdst]
    exact exec_nop s
  · intro line
    rw [execLine_unparseable]
    exact execLine_nop s

end Sys2Proof.Machine

/-! Decoding what was encoded (R71, R75, R79). -/

namespace Sys2Proof.Laws.Encoding

/-- The family `Encoding` holds of every instruction. -/
theorem statement (i : Instr) : Statement i := by
  cases i
  exacts [ext _, nop, halt, mov _ _, movi _ _, add _ _, addi _ _, sub _ _, subi _ _, and _ _, or _ _, xor _ _,
    shl _, shr _, neg _, cmp _ _, cmpi _ _, jmp _, beq _, bne _, bpl _, bmi _, bvc _, bvs _, bcc _, bcs _,
    reserved _ _]

end Sys2Proof.Laws.Encoding

namespace Sys2Proof

/-- A word stays alone unless it is an EXT before a CMP (R79). -/
theorem pairWith_eq_self {i : Instr} {following : Option Instr}
    (h : ∀ imm rd rs, i = .ext imm → following ≠ some (.cmp rd rs)) : pairWith i following = i := by
  unfold pairWith
  split
  · exact absurd rfl (h _ _ _ rfl)
  · rfl

/-- Only CMPI has a second word (R70, R79). -/
theorem size_eq_one_or_cmpi (i : Instr) : i.size = 1 ∨ ∃ rd imm, i = .cmpi rd imm := by
  cases i with
  | cmpi rd imm => exact .inr ⟨rd, imm, rfl⟩
  | _ => exact .inl rfl

/-- The one word of a one-word instruction decodes to it. -/
theorem encode_eq_singleton {i : Instr} (hsize : i.size = 1) : ∃ w, encode i = [w] ∧ decodeWord w = i := by
  obtain ⟨hlen, hdec⟩ := Laws.Encoding.statement i
  obtain ⟨w, hw⟩ := List.length_eq_one_iff.mp (hlen.trans hsize)
  have halone : pairWith (decodeWord w) none = decodeWord w := pairWith_eq_self (by simp)
  refine ⟨w, hw, ?_⟩
  rw [hw, decode_cons, List.head?_nil, Option.map_none, halone] at hdec
  exact (Prod.mk.inj (Except.ok.inj hdec)).1

/-- Every word alone is a one-word instruction (R79). -/
theorem size_decodeWord (w : Word) : (decodeWord w).size = 1 :=
  (size_eq_one_or_cmpi _).resolve_right fun ⟨rd, imm, hi⟩ => decodeWord_ne_cmpi w rd imm hi

/-- A word that does not begin a pair is an instruction by itself, whatever follows. -/
theorem decode_cons_alone {w : Word} {ws : List Word}
    (h : ∀ imm w' ws' rd rs, decodeWord w = .ext imm → ws = w' :: ws' → decodeWord w' ≠ .cmp rd rs) :
    decode (w :: ws) = .ok (decodeWord w, ws) := by
  have halone : pairWith (decodeWord w) (ws.head?.map decodeWord) = decodeWord w := by
    refine pairWith_eq_self fun imm rd rs hext hcmp => ?_
    cases ws with
    | nil => cases hcmp
    | cons w' ws' => exact h imm w' ws' rd rs hext rfl (Option.some.inj hcmp)
  rw [decode_cons, halone, size_decodeWord, Nat.sub_self, List.drop_zero]

/-- An EXT word and a CMP word after it are the CMPI pair, whatever follows and whatever the CMP's `arg8` (R79, R80). -/
theorem decode_pair {v w : Word} {imm : Byte} {rd : BitVec 4} {rs : Byte} (hv : decodeWord v = .ext imm)
    (hw : decodeWord w = .cmp rd rs) (rest : List Word) : decode (v :: w :: rest) = .ok (.cmpi rd imm, rest) := by
  rw [decode_cons, List.head?_cons, Option.map_some, hv, hw]
  rfl

/-- Settles O1: a one-word instruction is its word's decoding and no pair begins there; the words of CMPI are the
pair. -/
theorem decodeReadsBackEncode : Obligations.DecodeReadsBackEncode := by
  intro i rest hrest
  rcases size_eq_one_or_cmpi i with hsize | ⟨rd, imm, rfl⟩
  · obtain ⟨w, hw, hi⟩ := encode_eq_singleton hsize
    rw [hw, List.singleton_append, decode_cons_alone, hi]
    intro imm w' ws' rd rs hext hcons
    exact hrest imm w' ws' rd rs (hi ▸ hext) hcons
  · exact decode_pair (decodeWord_mkWord 0x0 0xE imm) (decodeWord_mkWord 0xD rd 0x00) rest

end Sys2Proof

/-! The rows of the opcode table (R75, R84). -/

namespace Sys2Proof

/-- A mask acts on each field of a word (R71). -/
theorem mkWord_and_mkWord (op dst op' dst' : BitVec 4) (arg arg' : Byte) :
    mkWord op dst arg &&& mkWord op' dst' arg' = mkWord (op &&& op') (dst &&& dst') (arg &&& arg') :=
  BitVec.and_append.trans (congrArg (· ++ (arg &&& arg')) BitVec.and_append)

/-- The masks of the table let through no bit of `arg8` but bit 0 (R75, R77). -/
theorem mask_arg8_le_one : ∀ row ∈ opcodeRows, arg8 row.mask &&& 1#8 = arg8 row.mask := by decide

/-- Which row a word fits depends on bit 0 of its `arg8` alone. -/
theorem tableRow_mkWord_lowBit (op dst : BitVec 4) (arg : Byte) :
    tableRow (mkWord op dst arg) = tableRow (mkWord op dst (arg &&& 1#8)) := by
  refine List.find?_congr fun row hrow => ?_
  rw [← mkWord_fields row.mask, mkWord_and_mkWord, mkWord_and_mkWord, BitVec.and_assoc, BitVec.and_comm 1#8,
    mask_arg8_le_one row hrow]

/-- Which instruction a word is depends on bit 0 of its `arg8` alone. -/
theorem mnemonic_decodeFields_lowBit (op dst : BitVec 4) (arg : Byte) :
    (decodeFields op dst arg).mnemonic = (decodeFields op dst (arg &&& 1#8)).mnemonic := by
  have hbit : (arg &&& 1#8).getLsbD 0 = arg.getLsbD 0 := by simp
  unfold decodeFields
  split <;> try rfl
  · split <;> rfl
  · rw [hbit]
  · unfold decodeBranch
    split <;> rfl

/-- The rows and the decoder agree on every opcode, every `dst4` and both values of bit 0. -/
theorem tableRow_agrees_on_lowBit : ∀ (op dst : BitVec 4) (bit : Bool),
    (tableRow (mkWord op dst (if bit then 1#8 else 0#8))).map OpcodeRow.mnemonic =
      some (decodeFields op dst (if bit then 1#8 else 0#8)).mnemonic := by
  decide

/-- Settles O2: row and instruction depend on the opcode, `dst4` and bit 0 of `arg8`, and for each of these they
agree. -/
theorem firstTableRowIsTheInstruction : Obligations.FirstTableRowIsTheInstruction := by
  intro w
  have hbit : arg8 w &&& 1#8 = if (arg8 w).getLsbD 0 then 1#8 else 0#8 := by
    generalize arg8 w = arg
    revert arg
    decide
  have hrow := tableRow_agrees_on_lowBit (op4 w) (dst4 w) ((arg8 w).getLsbD 0)
  rw [← hbit, ← tableRow_mkWord_lowBit, ← mnemonic_decodeFields_lowBit, mkWord_fields] at hrow
  exact Option.map_eq_some_iff.mp hrow

end Sys2Proof

/-! Words written out, ignored bits, bytes and register ids (R21, R57, R74, R75, R80). -/

namespace Sys2Proof

/-- Settles O3: each word is closed, so the decoder evaluates it. -/
theorem specWordsDecode : Obligations.SpecWordsDecode := by
  unfold Obligations.SpecWordsDecode
  decide

/-- Opcode 1 is HALT, whatever its other bits (R80). -/
theorem decodeWord_halt {w : Word} (hop : op4 w = 0x1#4) : decodeWord w = .halt := by
  rw [decodeWord, hop]
  rfl

/-- Opcode 0xC is NEG, whatever its `arg8` (R80). -/
theorem decodeWord_neg {w : Word} (hop : op4 w = 0xC#4) : decodeWord w = .neg (dst4 w) := by
  rw [decodeWord, hop]
  rfl

/-- Opcode 0xB is a shift, told by bit 0 of `arg8` (R77). -/
theorem decodeWord_shift {w : Word} (hop : op4 w = 0xB#4) :
    decodeWord w = if (arg8 w).getLsbD 0 then .shr (dst4 w) else .shl (dst4 w) := by
  rw [decodeWord, hop]
  rfl

/-- Opcode 0xD is CMP (R75). -/
theorem decodeWord_cmp {w : Word} (hop : op4 w = 0xD#4) : decodeWord w = .cmp (dst4 w) (arg8 w) := by
  rw [decodeWord, hop]
  rfl

/-- Opcode 0xE is JMP, whatever its `dst4` (R80). -/
theorem decodeWord_jmp {w : Word} (hop : op4 w = 0xE#4) : decodeWord w = .jmp (arg8 w) := by
  rw [decodeWord, hop]
  rfl

/-- Bit 0 says whether a byte is odd. -/
theorem getLsbD_zero_eq_odd (b : Byte) : b.getLsbD 0 = decide (b.toNat % 2 = 1) := by
  have h := Nat.testBit_eq_decide_div_mod_eq (x := b.toNat) (i := 0)
  rwa [Nat.pow_zero, Nat.div_one] at h

/-- Settles O5: each opcode's row of the decoder names the fields it reads. -/
theorem ignoredBitsTakeNoPart : Obligations.IgnoredBitsTakeNoPart := by
  intro w
  refine ⟨decodeWord_halt, decodeWord_neg, fun hop => ?_, decodeWord_jmp, fun v hop hdst hcmp rest => ?_⟩
  · simp only [decodeWord_shift hop, getLsbD_zero_eq_odd, decide_eq_true_eq]
  · exact decode_pair ((decodeWord_ext v _).mpr ⟨hop, hdst, rfl⟩) (decodeWord_cmp hcmp) rest

/-- The two bytes of a word, joined again (R57). -/
theorem wordsOfBytes_wordBytes_append {w : Word} {bs : List Byte} {ws : List Word}
    (h : wordsOfBytes bs = .ok ws) : wordsOfBytes (wordBytes w ++ bs) = .ok (w :: ws) := by
  have hjoin : w.extractLsb' 8 8 ++ w.extractLsb' 0 8 = w := by
    refine BitVec.eq_of_getLsbD_eq fun i hi => ?_
    interval_cases i <;> simp only [BitVec.getLsbD_extractLsb', BitVec.getLsbD_append] <;> rfl
  simp only [wordBytes, List.cons_append, List.nil_append, wordsOfBytes, h, hjoin]

/-- The bytes of a word as numbers (R57). -/
theorem wordBytes_toNat (w : Word) :
    (wordBytes w).map BitVec.toNat = [(op4 w).toNat * 16 + (dst4 w).toNat, (arg8 w).toNat] := by
  have hlt := w.isLt
  have hhigh : (w.extractLsb' 8 8).toNat = (op4 w).toNat * 16 + (dst4 w).toNat := by
    simp only [op4, dst4, BitVec.extractLsb'_toNat, Nat.shiftRight_eq_div_pow]
    omega
  rw [← hhigh]
  rfl

/-- Settles O6, by induction on the words: each word's two bytes are joined again. -/
theorem bytesReadBackAsWords : Obligations.BytesReadBackAsWords := by
  refine ⟨fun ws => ?_, wordBytes_toNat⟩
  induction ws with
  | nil => rfl
  | cons w ws ih => exact wordsOfBytes_wordBytes_append ih

end Sys2Proof

namespace Sys2Proof.Machine

/-- No register id is above 8 (R21, R83). -/
theorem varOfId_eq_none {id : Nat} (h : 8 < id) : varOfId id = none := by
  unfold varOfId
  split <;> first
    | omega
    | rfl

/-- Settles O7: the ids are the table of `varOfId`, and a variable's fields hold its id. -/
theorem registerIdsNameTheVariables : Obligations.RegisterIdsNameTheVariables := by
  refine ⟨rfl, fun rd => ⟨rfl, varOfId_eq_none⟩, fun rs => ⟨rfl, varOfId_eq_none⟩, fun v => ?_⟩
  exact ⟨by cases v <;> rfl, rdVar_rdField v, rsVar_rsField v⟩

end Sys2Proof.Machine

/-! The words of the lowering tables (R113, R114). -/

namespace Sys2Proof.Machine

@[simp] theorem validRd_rdField (v : Var) : validRd (rdField v) = true := by
  rw [← rdVar_isSome, rdVar_rdField]
  rfl

@[simp] theorem validRs_rsField (v : Var) : validRs (rsField v) = true := by
  rw [← rsVar_isSome, rsVar_rsField]
  rfl

/-- What holds of loading an operand and of adding one holds of every instruction of `X = A + B` (R114). -/
theorem lowerAdd_forall {p : Instr → Prop} {dst : Var} (hload : ∀ o, p (loadInto dst o)) (hadd : ∀ o, p (addTo dst o))
    (a b : Operand) : ∀ i ∈ lowerAdd dst a b, p i := by
  unfold lowerAdd
  split
  · simp [hadd]
  · split <;> simp [hload, hadd]

/-- The same of `X = A - B`, with subtracting an operand and NEG (R114). -/
theorem lowerSub_forall {p : Instr → Prop} {dst : Var} (hload : ∀ o, p (loadInto dst o)) (hadd : ∀ o, p (addTo dst o))
    (hsub : ∀ o, p (subFrom dst o)) (hneg : p (.neg (rdField dst))) (a b : Operand) :
    ∀ i ∈ lowerSub dst a b, p i := by
  unfold lowerSub
  split
  · simp [hsub]
  · split
    · split <;> simp [hneg, hadd]
    · simp [hload, hsub]

/-- A well-formed instruction that is not an EXT word: the lowering tables have no other. -/
def Plain (i : Instr) : Prop := i.wellFormed = true ∧ isPrefixWord i = false

theorem plain_loadInto (dst : Var) (o : Operand) : Plain (loadInto dst o) := by
  cases o <;> simp [Plain, loadInto, Instr.wellFormed, isPrefixWord]

theorem plain_addTo (dst : Var) (o : Operand) : Plain (addTo dst o) := by
  cases o <;> simp [Plain, addTo, Instr.wellFormed, isPrefixWord]

theorem plain_subFrom (dst : Var) (o : Operand) : Plain (subFrom dst o) := by
  cases o <;> simp [Plain, subFrom, Instr.wellFormed, isPrefixWord]

theorem plain_neg (v : Var) : Plain (.neg (rdField v)) := ⟨validRd_rdField v, rfl⟩

theorem plain_branchInstr (c : Cond) (disp : Byte) : Plain (branchInstr c disp) := by
  cases c <;> exact ⟨rfl, rfl⟩

/-- Lines are lowered to plain instructions: registers are named by the ids of variables, and conditions by their
codes. -/
theorem lowerLine_plain (op : LineOp) : ∀ i ∈ lowerLine op, Plain i := by
  cases op with
  | branch c name => exact List.forall_mem_singleton.mpr (plain_branchInstr c 0#8)
  | assign dst o => exact List.forall_mem_singleton.mpr (plain_loadInto dst o)
  | assignAdd dst a b => exact lowerAdd_forall (plain_loadInto dst) (plain_addTo dst) a b
  | assignSub dst a b =>
    exact lowerSub_forall (plain_loadInto dst) (plain_addTo dst) (plain_subFrom dst) (plain_neg dst) a b
  | _ => simp [lowerLine, Plain, Instr.wellFormed, isPrefixWord]

/-- Settles O52: the first instruction is no EXT, so decoding reads its words back and leaves the others. -/
theorem loweredWordsAreWellFormed : Obligations.LoweredWordsAreWellFormed := by
  refine fun op => ⟨fun i hi => (lowerLine_plain op i hi).1, fun i is rest hop => ?_⟩
  obtain ⟨-, hprefix⟩ := lowerLine_plain op i (hop ▸ List.mem_cons_self)
  rw [lowerWords, hop, List.flatMap_cons, List.append_assoc]
  refine decodeReadsBackEncode i _ fun imm _ _ _ _ hext => ?_
  rw [hext] at hprefix
  cases hprefix

/-- The word of a line that is lowered to one word, from its fields (R71). -/
theorem lineWords_single {op : LineOp} {i : Instr} {o dst : BitVec 4} {arg : Byte} (hop : lowerLine op = [i])
    (hi : encode i = [mkWord o dst arg]) : lineWords op = [o.toNat * 4096 + dst.toNat * 256 + arg.toNat] := by
  rw [lineWords, lowerWords, hop, List.flatMap_singleton, hi, List.map_singleton, mkWord_toNat]

/-- A row with two registers. -/
theorem lineWords_vars (o : BitVec 4) {op : LineOp} {i : Instr} {v u : Var} (hop : lowerLine op = [i])
    (hi : encode i = [mkWord o (rdField v) (rsField u)]) :
    lineWords op = [o.toNat * 4096 + idOfVar v * 256 + idOfVar u] := by
  rw [lineWords_single hop hi, rdField_toNat, rsField_toNat]

/-- A row with a register and an immediate. -/
theorem lineWords_varImm (o : BitVec 4) {op : LineOp} {i : Instr} {v : Var} {n : Int} (hop : lowerLine op = [i])
    (hi : encode i = [mkWord o (rdField v) (byteOfInt n)]) :
    lineWords op = [o.toNat * 4096 + idOfVar v * 256 + (u8 n).toNat] := by
  rw [lineWords_single hop hi, rdField_toNat, byteOfInt_toNat]

/-- A row with one register, over a fixed argument byte. -/
theorem lineWords_var (o : BitVec 4) (arg : Byte) {op : LineOp} {i : Instr} {v : Var} (hop : lowerLine op = [i])
    (hi : encode i = [mkWord o (rdField v) arg]) :
    lineWords op = [o.toNat * 4096 + idOfVar v * 256 + arg.toNat] := by
  rw [lineWords_single hop hi, rdField_toNat]

/-- Only JMP and branch lines are sites, under the label they name (R111). -/
theorem site_eq_some_iff (op : LineOp) (name : Text) :
    op.site = some name ↔ op = .jmp name ∨ ∃ c, op = .branch c name := by
  cases op <;> simp [LineOp.site]

theorem site_of_mem_pendingItems {line : Text} {op : LineOp} {item : PendingItem} (h : item ∈ pendingItems line op) :
    item.site = op.site := by
  obtain ⟨w, -, rfl⟩ := List.mem_map.mp h
  rfl

/-- Settles O57: each row's word is the packing of its fields, and the fields of a variable and an immediate are its
id and its pattern. -/
theorem primitiveLinesLowerToTheirWords : Obligations.PrimitiveLinesLowerToTheirWords := by
  intro v1 v2 n line name
  refine ⟨rfl, rfl, lineWords_vars 0x2 rfl rfl, lineWords_varImm 0x3 rfl rfl, lineWords_vars 0x4 rfl rfl,
    lineWords_varImm 0x5 rfl rfl, lineWords_vars 0x6 rfl rfl, lineWords_varImm 0x7 rfl rfl, lineWords_vars 0x8 rfl rfl,
    lineWords_vars 0x9 rfl rfl, lineWords_vars 0xA rfl rfl, lineWords_var 0xB 0x00 rfl rfl, ?_,
    lineWords_var 0xC 0x00 rfl rfl, lineWords_vars 0xD rfl rfl, ?_, rfl, rfl, rfl, rfl, rfl,
    fun op => ⟨fun _ => site_of_mem_pendingItems, site_eq_some_iff op name⟩⟩
  · rw [lineWords_var 0xB 0x01 rfl rfl]
    simp [Nat.add_right_comm]
  · simp [lineWords, lowerWords, lowerLine, encode, mkWord_toNat, byteOfInt_toNat]

end Sys2Proof.Machine

/-! Branches and the small instructions, said once each (R133, R138, R170 to R175, R210 to R221). -/

namespace Sys2Proof.Machine

theorem exec_halt (s : State) : exec .halt s = .next s.halt := rfl

theorem exec_ext (imm : Byte) (s : State) : exec (.ext imm) s = .next (s.latch imm) := rfl

theorem exec_reserved (low : BitVec 3) (disp : Byte) (s : State) :
    exec (.reserved low disp) s = .next s.raiseMalformed := rfl

theorem exec_jmp (disp : Byte) (s : State) : exec (.jmp disp) s = .next (s.takeBranch disp) := rfl

/-- The branch instruction of a condition is `condBranch` of it (R210). -/
theorem exec_branchInstr (c : Cond) (disp : Byte) (s : State) :
    exec (branchInstr c disp) s = .next (s.condBranch c disp) := by
  cases c <;> rfl

/-- A taken branch whose target is an index goes to it (R212). -/
theorem takeBranch_of_index {disp : Byte} {s : State} {target : Nat} (h : branchTarget disp s = target) :
    s.takeBranch disp = { s with pc := target } := by
  rw [State.takeBranch, h, if_neg (Int.not_lt.mpr (Int.natCast_nonneg target)), Int.toNat_natCast]

/-- A taken branch whose target is negative faults in place (R212, R246). -/
theorem takeBranch_of_negative {disp : Byte} {s : State} (h : branchTarget disp s < 0) :
    s.takeBranch disp = s.raise .branchTargetNegative (.target (branchTarget disp s)) :=
  if_pos h

/-- A conditional branch whose target is an index changes the PC alone, by its condition (R210). -/
theorem condBranch_of_index {disp : Byte} {s : State} {target : Nat} (h : branchTarget disp s = target) (c : Cond) :
    s.condBranch c disp = { s with pc := if condHolds c s.flags then target else s.pc + 1 } := by
  unfold State.condBranch
  split
  · exact takeBranch_of_index h
  · rfl

/-- Settles O17. -/
theorem haltOnlyHalts : Obligations.HaltOnlyHalts := exec_halt

/-- Settles O25: the state after an EXT is `latch`. -/
theorem extLatchesTheImmediate : Obligations.ExtLatchesTheImmediate := exec_ext

/-- Settles O30: a reserved condition is malformed in every state. -/
theorem reservedConditionFaults : Obligations.ReservedConditionFaults := exec_reserved

/-- Settles O27: JMP is a taken branch. -/
theorem jmpGoesToItsTarget : Obligations.JmpGoesToItsTarget := by
  intro disp s target h
  rw [exec_jmp, takeBranch_of_index h]

/-- Settles O28: each branch is `condBranch` of its condition, and BNE, BPL, BVC and BCC test a flag for false. -/
theorem conditionalBranchesTestTheirFlag : Obligations.ConditionalBranchesTestTheirFlag := by
  intro disp s target h
  have hset (c : Cond) (flag : Bool) (hc : condHolds c s.flags = flag) :
      exec (branchInstr c disp) s = .next { s with pc := if flag then target else s.pc + 1 } := by
    rw [exec_branchInstr, condBranch_of_index h, hc]
  have hclear (c : Cond) (flag : Bool) (hc : condHolds c s.flags = !flag) :
      exec (branchInstr c disp) s = .next { s with pc := if flag then s.pc + 1 else target } := by
    rw [hset c _ hc]
    cases flag <;> rfl
  exact ⟨hset .eq _ rfl, hclear .ne _ rfl, hclear .pl _ rfl, hset .mi _ rfl, hclear .vc _ rfl, hset .vs _ rfl,
    hclear .cc _ rfl, hset .cs _ rfl⟩

/-- Settles O29: a taken branch is JMP's, and a branch that is not taken only advances. -/
theorem negativeTargetFaultsWhenTaken : Obligations.NegativeTargetFaultsWhenTaken := by
  rintro disp s t target htarget hneg rfl
  have htaken := takeBranch_of_negative (disp := disp) (s := s) (by rw [branchTarget_eq, htarget]; exact hneg)
  rw [branchTarget_eq, htarget] at htaken
  refine ⟨congrArg _ htaken, fun c => ?_⟩
  rw [exec_branchInstr, State.condBranch, htaken]
  rfl

end Sys2Proof.Machine

/-! The instructions that name registers: the variable they name, or the fault before any write (R83, R138). -/

namespace Sys2Proof.Machine

theorem withRd_some {rd : BitVec 4} {v : Var} (hd : rdVar rd = some v) (s : State) (k : Var → Result) :
    withRd rd s k = k v := by
  rw [withRd, hd]

theorem withRdRs_some {rd : BitVec 4} {rs : Byte} {v u : Var} (hd : rdVar rd = some v) (hs : rsVar rs = some u)
    (s : State) (k : Var → Var → Result) : withRdRs rd rs s k = k v u := by
  rw [withRdRs, hd, hs]

theorem withRd_invalid {rd : BitVec 4} (h : validRd rd = false) (s : State) (k : Var → Result) :
    withRd rd s k = .next s.raiseMalformed := by
  rw [← rdVar_isSome, Option.isSome_eq_false_iff, Option.isNone_iff_eq_none] at h
  rw [withRd, h]

theorem withRdRs_invalid {rd : BitVec 4} {rs : Byte} (h : (validRd rd && validRs rs) = false) (s : State)
    (k : Var → Var → Result) : withRdRs rd rs s k = .next s.raiseMalformed := by
  rw [← rdVar_isSome, ← rsVar_isSome] at h
  unfold withRdRs
  split
  · rename_i hd hs
    rw [hd, hs] at h
    cases h
  · rfl

/-- CMP with a pending immediate does not look at its `arg8` (R202). -/
theorem exec_cmp_of_pend {s : State} {imm : Byte} (h : s.pend = some imm) (rd : BitVec 4) (rs : Byte) :
    exec (.cmp rd rs) s = withRd rd s fun v => .next (s.compare (s.readVar v) imm) := by
  rw [exec, execCmp, compareWord, h]

/-- CMP with no pending immediate names two registers (R202). -/
theorem exec_cmp_of_no_pend {s : State} (h : s.pend = none) (rd : BitVec 4) (rs : Byte) :
    exec (.cmp rd rs) s = withRdRs rd rs s fun v u => .next (s.compare (s.readVar v) (s.readVar u)) := by
  rw [exec, execCmp, compareWord, h]

/-- CMPI compares after its EXT (R203). -/
theorem exec_cmpi (rd : BitVec 4) (imm : Byte) (s : State) :
    exec (.cmpi rd imm) s = withRd rd (s.latch imm) fun v => .next ((s.latch imm).compare (s.readVar v) imm) := rfl

/-- An ill-formed instruction that is no comparison raises MalformedInstruction before any write (R82, R83). -/
theorem exec_of_not_wellFormed {i : Instr} (h : i.wellFormed = false) (hcmp : ∀ rd rs, i ≠ .cmp rd rs)
    (hcmpi : ∀ rd imm, i ≠ .cmpi rd imm) (s : State) : exec i s = .next s.raiseMalformed := by
  cases i with
  | ext imm => cases h
  | nop => cases h
  | halt => cases h
  | jmp disp => cases h
  | beq disp => cases h
  | bne disp => cases h
  | bpl disp => cases h
  | bmi disp => cases h
  | bvc disp => cases h
  | bvs disp => cases h
  | bcc disp => cases h
  | bcs disp => cases h
  | cmp rd rs => exact absurd rfl (hcmp rd rs)
  | cmpi rd imm => exact absurd rfl (hcmpi rd imm)
  | reserved low disp => rfl
  | mov rd rs => exact withRdRs_invalid h s _
  | add rd rs => exact withRdRs_invalid h s _
  | sub rd rs => exact withRdRs_invalid h s _
  | and rd rs => exact withRdRs_invalid h s _
  | or rd rs => exact withRdRs_invalid h s _
  | xor rd rs => exact withRdRs_invalid h s _
  | movi rd imm => exact withRd_invalid h s _
  | addi rd imm => exact withRd_invalid h s _
  | subi rd imm => exact withRd_invalid h s _
  | shl rd => exact withRd_invalid h s _
  | shr rd => exact withRd_invalid h s _
  | neg rd => exact withRd_invalid h s _

theorem validRd_eq_false {rd : BitVec 4} : validRd rd = false ↔ 8 < rd.toNat := by
  rw [validRd, decide_eq_false_iff_not, Nat.not_le]

theorem validRs_eq_false {rs : Byte} : validRs rs = false ↔ 8 < rs.toNat := by
  rw [validRs, decide_eq_false_iff_not, Nat.not_le]

/-- Settles O31: the register check comes first; CMP checks `arg8` only with no pending immediate, and CMPI's check is
at its CMP word. -/
theorem invalidRegisterFaults : Obligations.InvalidRegisterFaults := by
  rintro i s t rfl
  refine ⟨fun h hcmp hcmpi => exec_of_not_wellFormed h hcmp hcmpi s, fun rd rs h => ?_, fun rd imm h => ?_⟩
  · cases hp : s.pend with
    | none =>
      rw [exec_cmp_of_no_pend hp, withRdRs_invalid]
      · rfl
      · rw [Bool.and_eq_false_iff, validRd_eq_false, validRs_eq_false]
        exact h.imp_right And.left
    | some imm =>
      rw [exec_cmp_of_pend hp, withRd_invalid]
      · rfl
      · exact validRd_eq_false.mpr (h.resolve_right fun ⟨_, hn⟩ => by rw [hp] at hn; cases hn)
  · rw [exec_cmpi, withRd_invalid (validRd_eq_false.mpr h)]
    rfl

end Sys2Proof.Machine

/-! The results of the ALU instructions and lines (R180 to R194, R202, R203, R230 to R233). -/

namespace Sys2Proof.Machine

/-! An instruction whose registers name variables is the line of those variables (R138). -/

theorem exec_mov {rd : BitVec 4} {rs : Byte} {v u : Var} (hd : rdVar rd = some v) (hs : rsVar rs = some u) (s : State) :
    exec (.mov rd rs) s = lineMov v u s := withRdRs_some hd hs s _

theorem exec_add {rd : BitVec 4} {rs : Byte} {v u : Var} (hd : rdVar rd = some v) (hs : rsVar rs = some u) (s : State) :
    exec (.add rd rs) s = lineAlu .add (s.readVar v) (s.readVar u) v s := withRdRs_some hd hs s _

theorem exec_sub {rd : BitVec 4} {rs : Byte} {v u : Var} (hd : rdVar rd = some v) (hs : rsVar rs = some u) (s : State) :
    exec (.sub rd rs) s = lineAlu .sub (s.readVar v) (s.readVar u) v s := withRdRs_some hd hs s _

theorem exec_and {rd : BitVec 4} {rs : Byte} {v u : Var} (hd : rdVar rd = some v) (hs : rsVar rs = some u) (s : State) :
    exec (.and rd rs) s = lineAlu .and (s.readVar v) (s.readVar u) v s := withRdRs_some hd hs s _

theorem exec_or {rd : BitVec 4} {rs : Byte} {v u : Var} (hd : rdVar rd = some v) (hs : rsVar rs = some u) (s : State) :
    exec (.or rd rs) s = lineAlu .or (s.readVar v) (s.readVar u) v s := withRdRs_some hd hs s _

theorem exec_xor {rd : BitVec 4} {rs : Byte} {v u : Var} (hd : rdVar rd = some v) (hs : rsVar rs = some u) (s : State) :
    exec (.xor rd rs) s = lineAlu .xor (s.readVar v) (s.readVar u) v s := withRdRs_some hd hs s _

theorem exec_movi {rd : BitVec 4} {v : Var} (hd : rdVar rd = some v) (imm : Byte) (s : State) :
    exec (.movi rd imm) s = .next (s.writeVar v imm).advance := withRd_some hd s _

theorem exec_addi {rd : BitVec 4} {v : Var} (hd : rdVar rd = some v) (imm : Byte) (s : State) :
    exec (.addi rd imm) s = lineAlu .add (s.readVar v) imm v s := withRd_some hd s _

theorem exec_subi {rd : BitVec 4} {v : Var} (hd : rdVar rd = some v) (imm : Byte) (s : State) :
    exec (.subi rd imm) s = lineAlu .sub (s.readVar v) imm v s := withRd_some hd s _

theorem exec_neg {rd : BitVec 4} {v : Var} (hd : rdVar rd = some v) (s : State) :
    exec (.neg rd) s = lineAlu .sub 0#8 (s.readVar v) v s := withRd_some hd s _

theorem exec_shl {rd : BitVec 4} {v : Var} (hd : rdVar rd = some v) (s : State) :
    exec (.shl rd) s = lineAlu .shl (s.readVar v) 0#8 v s := withRd_some hd s _

theorem exec_shr {rd : BitVec 4} {v : Var} (hd : rdVar rd = some v) (s : State) :
    exec (.shr rd) s = lineAlu .shr (s.readVar v) 0#8 v s := withRd_some hd s _

/-- Adding, said once in integer arithmetic, for ADD, ADDI and `X = A + B` (R180, R181, R232). -/
theorem lineAlu_add (a b : Byte) (v : Var) (s : State) :
    lineAlu .add a b v s = .next { s with
      pc := s.pc + 1, vars := s.vars.set v (byteOfInt (a.toInt + b.toInt)),
      scratch := { src1 := a, src2 := b, res := byteOfInt (a.toInt + b.toInt), cy := decide (256 ≤ a.toNat + b.toNat) },
      flags := sumFlags a b, mirror := sumFlags a b } := by
  rw [lineAlu, State.aluTo_eq, nativeFlags_add, nativeFlags_add, ← add_eq_byteOfInt]
  rfl

/-- Subtracting, said once, for SUB, SUBI, NEG and `X = A - B` (R182 to R184, R233). -/
theorem lineAlu_sub (a b : Byte) (v : Var) (s : State) :
    lineAlu .sub a b v s = .next { s with
      pc := s.pc + 1, vars := s.vars.set v (byteOfInt (a.toInt - b.toInt)),
      scratch := { src1 := a, src2 := b, res := byteOfInt (a.toInt - b.toInt), cy := decide (a.toNat < b.toNat) },
      flags := differenceFlags s.params a b, mirror := differenceFlags s.params a b } := by
  rw [lineAlu, State.aluTo_eq, nativeFlags_sub, nativeFlags_sub, ← sub_eq_byteOfInt]
  rfl

/-- Comparing, said once: a subtraction whose result no variable takes (R202, R203). -/
theorem alu_sub_eq (a b : Byte) (s : State) :
    s.alu .sub a b = { s with
      scratch := { src1 := a, src2 := b, res := byteOfInt (a.toInt - b.toInt), cy := decide (a.toNat < b.toNat) },
      flags := differenceFlags s.params a b, mirror := differenceFlags s.params a b } := by
  rw [State.alu_eq, nativeFlags_sub, nativeFlags_sub, ← sub_eq_byteOfInt]
  rfl

/-- A logic function, said once; CY stays (R162, R190 to R192). -/
theorem lineAlu_logic {f : AluFn} (hf : f.isLogic = true) (a b : Byte) (v : Var) (s : State) :
    lineAlu f a b v s = .next { s with
      pc := s.pc + 1, vars := s.vars.set v (nativeResult f a b),
      scratch := { src1 := a, src2 := b, res := nativeResult f a b, cy := s.scratch.cy },
      flags := logicFlags s.params (nativeResult f a b) s.flags,
      mirror := logicFlags s.params (nativeResult f a b) s.mirror } := by
  rw [lineAlu, State.aluTo_eq, nativeFlags_logic _ _ hf, nativeFlags_logic _ _ hf]
  cases f <;> first
    | rfl
    | cases hf

/-- Settles O18: MOV and MOVI write one variable and advance. -/
theorem movesCopyAndLoad : Obligations.MovesCopyAndLoad :=
  ⟨fun _ _ _ _ s hd hs => exec_mov hd hs s, fun _ imm _ s hd => exec_movi hd imm s⟩

/-- Settles O19: both add to the destination's value, and the adder is integer addition. -/
theorem addWritesWrappedSum : Obligations.AddWritesWrappedSum := by
  intro rd dv s hd
  constructor
  · rintro rs rv a b hs rfl rfl
    rw [exec_add hd hs, lineAlu_add]
  · rintro imm a rfl
    rw [exec_addi hd, lineAlu_add]

/-- Settles O20: both subtract from the destination's value, and the subtractor is integer subtraction. -/
theorem subWritesWrappedDifference : Obligations.SubWritesWrappedDifference := by
  intro rd dv s hd
  constructor
  · rintro rs rv a b hs rfl rfl
    rw [exec_sub hd hs, lineAlu_sub]
  · rintro imm a rfl
    rw [exec_subi hd, lineAlu_sub]

/-- A byte is 0 exactly when its pattern is. -/
theorem eq_zero_iff_toNat (b : Byte) : b = 0#8 ↔ b.toNat = 0 := BitVec.toNat_eq

/-- The flags of `0 - b` are those of NEG (R184). -/
theorem differenceFlags_zero (p : Params) (b : Byte) : differenceFlags p 0#8 b = negFlags p b := by
  have hb := toInt_range b
  have hpattern : b.toInt = 0 ↔ b.toNat = 0 := by
    rw [← eq_zero_iff_toNat, ← BitVec.toInt_inj, BitVec.toInt_zero]
  simp only [differenceFlags, negFlags, Flags.mk.injEq, decide_eq_decide, BitVec.toInt_zero, BitVec.toNat_zero,
    eq_zero_iff_toNat, ← hpattern, wrap8]
  refine ⟨by omega, by omega, by omega, ?_⟩
  cases p.cSub <;> simp only [decide_eq_decide, ne_eq, eq_zero_iff_toNat] <;> omega

/-- Settles O21: NEG is the subtraction from 0, whose borrow is that the operand is not 0. -/
theorem negWritesWrappedNegation : Obligations.NegWritesWrappedNegation := by
  rintro rd dv s b hd rfl
  have hborrow : decide ((0#8).toNat < (s.readVar dv).toNat) = decide (s.readVar dv ≠ 0#8) := by
    rw [decide_eq_decide, ne_eq, eq_zero_iff_toNat, BitVec.toNat_zero, Nat.pos_iff_ne_zero]
  rw [exec_neg hd, lineAlu_sub, differenceFlags_zero, hborrow, BitVec.toInt_zero, Int.zero_sub]

/-- Settles O22: each is a logic function of the two values, whose native result is the bitwise one. -/
theorem logicWritesBitwiseResult : Obligations.LogicWritesBitwiseResult := by
  rintro rd rs dv rv s a b hd hs rfl rfl
  exact ⟨(exec_and hd hs s).trans (lineAlu_logic rfl _ _ _ _), (exec_or hd hs s).trans (lineAlu_logic rfl _ _ _ _),
    (exec_xor hd hs s).trans (lineAlu_logic rfl _ _ _ _)⟩

/-- Shifting left is doubling (R163, R193). -/
theorem shl_eq_byteOfInt (a : Byte) : a <<< 1 = byteOfInt (2 * a.toInt) := by
  have ha := BitVec.toInt_eq_toNat_cond a
  have hlt := a.isLt
  apply BitVec.eq_of_toInt_eq
  rw [toInt_byteOfInt, BitVec.toInt_shiftLeft, wrap8, Int.bmod_def, Nat.shiftLeft_eq]
  split at ha <;> omega

/-- Shifting right with the sign kept is halving, rounded down (R163, R194). -/
theorem shr_toInt (a : Byte) : (a.sshiftRight 1).toInt = a.toInt / 2 := by
  rw [BitVec.toInt_sshiftRight, Int.shiftRight_eq_div_pow]
  rfl

theorem shr_eq_byteOfInt (a : Byte) : a.sshiftRight 1 = byteOfInt (a.toInt / 2) := by
  have ha := toInt_range a
  apply BitVec.eq_of_toInt_eq
  rw [shr_toInt, toInt_byteOfInt, wrap8_of_signed_range (by omega) (by omega)]

/-- The sign bit is the pattern's upper half. -/
theorem getLsbD_seven_eq_upperHalf (a : Byte) : a.getLsbD 7 = decide (128 ≤ a.toNat) := by
  have ha := BitVec.toInt_eq_toNat_cond a
  have hlt := a.isLt
  rw [getLsbD_seven, decide_eq_decide]
  split at ha <;> omega

theorem nativeFlags_shl (p : Params) (a b : Byte) (sc : Scratch) (old : Flags) :
    nativeFlags p .shl (nativeScratch .shl a b sc) old = shlFlags a := by
  have ha := toInt_range a
  simp only [nativeFlags, shlFlags, AluFn.isLogic, Bool.false_and, Bool.false_eq_true, if_false, flagZ, flagN, flagV,
    flagC, nativeScratch, nativeCy, nativeResult, shl_eq_byteOfInt, getLsbD_seven, beq_zero_eq, toInt_byteOfInt,
    Flags.mk.injEq, true_and]
  constructor
  · rw [Bool.eq_iff_iff]
    simp only [bne_iff_ne, ne_eq, decide_eq_decide, decide_eq_true_eq]
    unfold wrap8
    omega
  · rw [← getLsbD_seven, getLsbD_seven_eq_upperHalf]

theorem nativeFlags_shr (p : Params) (a b : Byte) (sc : Scratch) (old : Flags) :
    nativeFlags p .shr (nativeScratch .shr a b sc) old = shrFlags a := by
  simp only [nativeFlags, shrFlags, AluFn.isLogic, Bool.false_and, Bool.false_eq_true, if_false, flagZ, flagN, flagV,
    flagC, nativeScratch, nativeCy, nativeResult, getLsbD_seven, beq_zero_eq, shr_toInt, getLsbD_zero_eq_odd,
    Flags.mk.injEq, decide_eq_decide, true_and, and_true]
  omega

/-- Settles O23: the shift is doubling in integers. -/
theorem shlDoublesWithWrap : Obligations.ShlDoublesWithWrap := by
  rintro rd dv s a hd rfl
  rw [exec_shl hd, lineAlu, State.aluTo_eq, nativeFlags_shl, nativeFlags_shl, ← shl_eq_byteOfInt,
    ← getLsbD_seven_eq_upperHalf]
  rfl

/-- Settles O24: the shift is halving in integers, rounded down. -/
theorem shrHalvesKeepingSign : Obligations.ShrHalvesKeepingSign := by
  rintro rd dv s a hd rfl
  rw [exec_shr hd, lineAlu, State.aluTo_eq, nativeFlags_shr, nativeFlags_shr, ← shr_eq_byteOfInt, ← getLsbD_zero_eq_odd]
  rfl

/-- Settles O26: each comparison is the subtraction of `alu_sub_eq`, from the index its words leave. -/
theorem compareWritesFlagsOnly : Obligations.CompareWritesFlagsOnly := by
  rintro rd dv s a hd rfl
  refine ⟨?_, fun rs imm hp => ?_, fun imm => ?_⟩
  · rintro rs rv b hp hs rfl
    rw [exec_cmp_of_no_pend hp, withRdRs_some hd hs, State.compare, alu_sub_eq]
    simp only [State.clearPend, State.advance, hp]
  · rw [exec_cmp_of_pend hp, withRd_some hd, State.compare, alu_sub_eq]
    rfl
  · rw [exec_cmpi, withRd_some hd, State.compare, alu_sub_eq]
    rfl

/-- Settles O15: the flags of a comparison are those of the integer difference, whose overflow is V. -/
theorem compareFlagsGiveTheSignedOrder : Obligations.CompareFlagsGiveTheSignedOrder := by
  rintro s a b fl rfl
  have ha := toInt_range a
  have hb := toInt_range b
  rw [alu_sub_eq]
  simp only [differenceFlags, ne_eq, decide_eq_true_eq, decide_eq_false_iff_not, decide_eq_decide]
  unfold wrap8
  refine ⟨?_, ?_, ?_, ?_, ?_⟩ <;> omega

end Sys2Proof.Machine

/-! Lines of micro mode (R113, R138, R173, R211, R230 to R233). -/

namespace Sys2Proof.Machine

/-- Settles O38: PRINT reports, then advances. -/
theorem printReportsTheVariable : Obligations.PrintReportsTheVariable := fun _ _ => rfl

/-- Settles O34: the line is MOVI, and what it stores is the wrapped literal. -/
theorem assignLiteralLoadsIt : Obligations.AssignLiteralLoadsIt :=
  fun _ n _ => ⟨rfl, toInt_byteOfInt n, rfl⟩

/-- Settles O35: the copy is `copyThroughSrc1`. -/
theorem assignVariableCopiesThroughSrc1 : Obligations.AssignVariableCopiesThroughSrc1 := by
  rintro dst src s b rfl
  rw [execLine, lineAssign, lineCopy, State.copyThroughSrc1_eq]
  rfl

/-- In micro mode the label table is the program's (R37). -/
theorem labelIndex_micro {s : State} {lines : List Text} {labels : List (Text × Nat)}
    (h : s.program = .micro lines labels) (name : Text) : s.labelIndex name = lookupLabel name labels := by
  rw [State.labelIndex, h]

/-- A branch to a declared label changes the PC alone (R211). -/
theorem labelBranch_of_declared {s : State} {name : Text} {k : Nat} (h : s.labelIndex name = some k) (taken : Bool) :
    s.labelBranch taken name = { s with pc := if taken then k else s.pc + 1 } := by
  rw [State.labelBranch, h]
  cases taken <;> rfl

/-- A branch to an undeclared label faults, taken or not (R211). -/
theorem labelBranch_of_undeclared {s : State} {name : Text} (h : s.labelIndex name = none) (taken : Bool) :
    s.labelBranch taken name = s.raise .unresolvedLabel (.label name) := by
  rw [State.labelBranch, h]

/-- Settles O37: both forms are `labelBranch`, JMP with a condition that holds. -/
theorem branchLinesGoToTheirLabel : Obligations.BranchLinesGoToTheirLabel := by
  intro name lines labels s hprogram
  have hindex := labelIndex_micro hprogram name
  constructor
  · intro k hk
    have hbranch := labelBranch_of_declared (hindex.trans hk)
    exact ⟨congrArg _ (hbranch true), fun c => congrArg _ (hbranch (condHolds c s.flags))⟩
  · rintro t hnone rfl
    have hbranch := labelBranch_of_undeclared (hindex.trans hnone)
    exact ⟨congrArg _ (hbranch true), fun c => congrArg _ (hbranch (condHolds c s.flags))⟩

theorem sumFlags_comm (a b : Byte) : sumFlags a b = sumFlags b a := by
  simp only [sumFlags, Int.add_comm a.toInt, Nat.add_comm a.toNat]

/-- Settles O36: the adder gets the operands in the order of `addOrder`, and their sum and its flags do not depend on
it. -/
theorem assignSumAndDifference : Obligations.AssignSumAndDifference := by
  rintro dst p q s a b rfl rfl
  refine ⟨?_, lineAlu_sub _ _ _ _⟩
  rw [execLine, lineAssignAdd, lineAlu_add]
  cases p with
  | var v => rfl
  | imm n =>
    cases q with
    | imm m => rfl
    | var v =>
      by_cases hv : v = dst
      · simp only [addOrder, if_pos hv, sumFlags_comm (operandValue (.var v) s),
          Int.add_comm (operandValue (.var v) s).toInt, Nat.add_comm (operandValue (.var v) s).toNat]
      · simp only [addOrder, if_neg hv]

/-! Executing what a line is lowered to (R113, R114). -/

theorem execAll_singleton (i : Instr) (s : State) : execAll [i] s = exec i s := by
  rw [execAll]
  cases exec i s <;> rfl

theorem execAll_cons_of_next {i : Instr} {s t : State} (h : exec i s = .next t) (rest : List Instr) :
    execAll (i :: rest) s = execAll rest t := by
  rw [execAll, h]
  rfl

/-- A line lowered to one instruction does what that instruction does, if the instruction does what the line does. -/
theorem execAll_lowerLine_of_single {op : LineOp} {i : Instr} {s : State} (hop : lowerLine op = [i])
    (h : execLine op s = exec i s) : execAll (lowerLine op) s = execLine op s := by
  rw [hop, execAll_singleton, h]

/-- With no immediate pending, comparing is the subtraction and the advance (R33, R202). -/
theorem compare_of_no_pend {s : State} (h : s.pend = none) (a b : Byte) :
    s.compare a b = (s.alu .sub a b).advance := by
  rw [State.compare, State.alu_eq]
  simp only [State.clearPend, h]

theorem exec_cmp_fields {s : State} (h : s.pend = none) (v u : Var) :
    exec (.cmp (rdField v) (rsField u)) s = execLine (.cmp v u) s := by
  rw [exec_cmp_of_no_pend h, withRdRs_some (rdVar_rdField v) (rsVar_rsField u), compare_of_no_pend h]
  rfl

/-- Settles O33: the fields the assembler writes name the line's variables, so instruction and line are the same
operation on the one ALU; the line CMPI is the subtraction without a destination. -/
theorem primitiveLinesMatchTheirInstructions : Obligations.PrimitiveLinesMatchTheirInstructions := by
  intro v1 v2 n s
  have hrd := rdVar_rdField v1
  have hrs := rsVar_rsField v2
  have hnop : execLine .nop s = exec .nop s := rfl
  have hhalt : execLine .halt s = exec .halt s := rfl
  have hmov : execLine (.mov v1 v2) s = _ := (exec_mov hrd hrs s).symm
  have hmovi : execLine (.movi v1 n) s = _ := (exec_movi hrd (byteOfInt n) s).symm
  have hadd : execLine (.add v1 v2) s = _ := (exec_add hrd hrs s).symm
  have haddi : execLine (.addi v1 n) s = _ := (exec_addi hrd (byteOfInt n) s).symm
  have hsub : execLine (.sub v1 v2) s = _ := (exec_sub hrd hrs s).symm
  have hsubi : execLine (.subi v1 n) s = _ := (exec_subi hrd (byteOfInt n) s).symm
  have hneg : execLine (.neg v1) s = _ := (exec_neg hrd s).symm
  have hand : execLine (.and v1 v2) s = _ := (exec_and hrd hrs s).symm
  have hor : execLine (.or v1 v2) s = _ := (exec_or hrd hrs s).symm
  have hxor : execLine (.xor v1 v2) s = _ := (exec_xor hrd hrs s).symm
  have hshl : execLine (.shl v1) s = _ := (exec_shl hrd s).symm
  have hshr : execLine (.shr v1) s = _ := (exec_shr hrd s).symm
  have hcmp : s.pend = none → execLine (.cmp v1 v2) s = exec (.cmp (rdField v1) (rsField v2)) s :=
    fun hp => (exec_cmp_fields hp v1 v2).symm
  refine ⟨⟨hnop, hhalt, hmov, hmovi, hadd, haddi, hsub, hsubi, hneg, hand, hor, hxor, hshl, hshr, hcmp⟩, ?_,
    fun hp => execAll_lowerLine_of_single rfl (hcmp hp), ?_⟩
  · simp only [List.forall_mem_cons]
    exact ⟨execAll_lowerLine_of_single rfl hnop, execAll_lowerLine_of_single rfl hhalt,
      execAll_lowerLine_of_single rfl hmov, execAll_lowerLine_of_single rfl hmovi,
      execAll_lowerLine_of_single rfl hadd, execAll_lowerLine_of_single rfl haddi,
      execAll_lowerLine_of_single rfl hsub, execAll_lowerLine_of_single rfl hsubi,
      execAll_lowerLine_of_single rfl hneg, execAll_lowerLine_of_single rfl hand,
      execAll_lowerLine_of_single rfl hor, execAll_lowerLine_of_single rfl hxor,
      execAll_lowerLine_of_single rfl hshl, execAll_lowerLine_of_single rfl hshr, List.forall_mem_nil _⟩
  · rintro a b rfl rfl
    rw [execLine, lineCompare, alu_sub_eq]
    rfl

end Sys2Proof.Machine

/-! Lowered assignments (R114). -/

namespace Sys2Proof.Machine

/-- Both answer a next state, and these have the same variables and the same flags. -/
def SameVarsAndFlags (r r' : Result) : Prop :=
  ∃ t u, r = .next t ∧ r' = .next u ∧ t.vars = u.vars ∧ t.flags = u.flags

theorem Vars.set_set (v : Var) (b c : Byte) (vs : Vars) : (vs.set v b).set v c = vs.set v c := by
  cases v <;> rfl

/-- "load A into X" writes the operand's value and advances (R114). -/
theorem exec_loadInto (dst : Var) (p : Operand) (s : State) :
    exec (loadInto dst p) s = .next (s.writeVar dst (operandValue p s)).advance := by
  cases p with
  | var v => exact exec_mov (rdVar_rdField dst) (rsVar_rsField v) s
  | imm n => exact exec_movi (rdVar_rdField dst) (byteOfInt n) s

theorem exec_addTo (dst : Var) (p : Operand) (s : State) :
    exec (addTo dst p) s = lineAlu .add (s.readVar dst) (operandValue p s) dst s := by
  cases p with
  | var v => exact exec_add (rdVar_rdField dst) (rsVar_rsField v) s
  | imm n => exact exec_addi (rdVar_rdField dst) (byteOfInt n) s

theorem exec_subFrom (dst : Var) (p : Operand) (s : State) :
    exec (subFrom dst p) s = lineAlu .sub (s.readVar dst) (operandValue p s) dst s := by
  cases p with
  | var v => exact exec_sub (rdVar_rdField dst) (rsVar_rsField v) s
  | imm n => exact exec_subi (rdVar_rdField dst) (byteOfInt n) s

/-- An operand that is not the variable written keeps its value, in any state that differs in that variable alone. -/
theorem operandValue_of_vars_set {p : Operand} {dst : Var} (hp : p ≠ .var dst) {s t : State} {b : Byte}
    (ht : t.vars = s.vars.set dst b) : operandValue p t = operandValue p s := by
  cases p with
  | var v =>
    have hv : v ≠ dst := fun h => hp (h ▸ rfl)
    rw [operandValue, operandValue, State.readVar, ht, Vars.get_set_other dst v b s.vars hv, State.readVar]
  | imm n => rfl

theorem readVar_of_vars_set {s t : State} {dst : Var} {b : Byte} (ht : t.vars = s.vars.set dst b) :
    t.readVar dst = b := by
  rw [State.readVar, ht, Vars.get_set_same]

/-- The result of adding or subtracting does not depend on the destination's old value, and its flags do not depend on
the old flags. -/
theorem lineAlu_add_after_write {s t : State} {dst : Var} {x : Byte} (ht : t.vars = s.vars.set dst x) (a b : Byte) :
    SameVarsAndFlags (lineAlu .add a b dst t) (lineAlu .add a b dst s) := by
  refine ⟨_, _, lineAlu_add a b dst t, lineAlu_add a b dst s, ?_, rfl⟩
  simp only [ht, Vars.set_set]

theorem lineAlu_sub_after_write {s t : State} {dst : Var} {x : Byte} (ht : t.vars = s.vars.set dst x)
    (hp : t.params = s.params) (a b : Byte) :
    SameVarsAndFlags (lineAlu .sub a b dst t) (lineAlu .sub a b dst s) := by
  refine ⟨_, _, lineAlu_sub a b dst t, lineAlu_sub a b dst s, ?_, ?_⟩
  · simp only [ht, Vars.set_set]
  · simp only [hp]

theorem lineAlu_add_comm (a b : Byte) (dst : Var) (s : State) :
    SameVarsAndFlags (lineAlu .add a b dst s) (lineAlu .add b a dst s) := by
  refine ⟨_, _, lineAlu_add a b dst s, lineAlu_add b a dst s, ?_, sumFlags_comm a b⟩
  simp only [Int.add_comm]

theorem lineAlu_same (f : AluFn) (a b : Byte) (dst : Var) (s : State) :
    SameVarsAndFlags (lineAlu f a b dst s) (lineAlu f a b dst s) := ⟨_, _, rfl, rfl, rfl, rfl⟩

theorem SameVarsAndFlags.trans {r r' r'' : Result} (h : SameVarsAndFlags r r') (h' : SameVarsAndFlags r' r'') :
    SameVarsAndFlags r r'' := by
  obtain ⟨t, u, hr, hr', hvars, hflags⟩ := h
  obtain ⟨u', w, hu', hr'', hvars', hflags'⟩ := h'
  cases hr'.symm.trans hu'
  exact ⟨t, w, hr, hr'', hvars.trans hvars', hflags.trans hflags'⟩

/-- The line `X = A + B` adds the operands in one order or the other (R232). -/
theorem execLine_assignAdd (dst : Var) (a b : Operand) (s : State) :
    SameVarsAndFlags (lineAlu .add (operandValue a s) (operandValue b s) dst s) (execLine (.assignAdd dst a b) s) := by
  cases a with
  | var v => exact lineAlu_same _ _ _ _ _
  | imm n =>
    cases b with
    | imm m => exact lineAlu_same _ _ _ _ _
    | var v =>
      by_cases hv : v = dst
      · simp only [execLine, lineAssignAdd, addOrder, if_pos hv]
        exact lineAlu_add_comm _ _ _ _
      · simp only [execLine, lineAssignAdd, addOrder, if_neg hv]
        exact lineAlu_same _ _ _ _ _

theorem lowered_assign (dst : Var) (a : Operand) (s : State) :
    SameVarsAndFlags (execAll (lowerLine (.assign dst a)) s) (execLine (.assign dst a) s) := by
  rw [lowerLine, execAll_singleton, exec_loadInto]
  cases a with
  | imm n => exact ⟨_, _, rfl, rfl, rfl, rfl⟩
  | var v =>
    rw [execLine, lineAssign, lineCopy, State.copyThroughSrc1_eq]
    exact ⟨_, _, rfl, rfl, rfl, rfl⟩

theorem lowered_assignAdd (dst : Var) (a b : Operand) (s : State) :
    SameVarsAndFlags (execAll (lowerAdd dst a b) s) (lineAlu .add (operandValue a s) (operandValue b s) dst s) := by
  unfold lowerAdd
  split
  · rename_i ha
    rw [execAll_singleton, exec_addTo, ha]
    exact lineAlu_same _ _ _ _ _
  · split
    · rename_i hb
      rw [execAll_singleton, exec_addTo, hb]
      exact lineAlu_add_comm _ _ _ _
    · rename_i hb
      have hload := exec_loadInto dst a s
      have hvars : (s.writeVar dst (operandValue a s)).advance.vars = s.vars.set dst (operandValue a s) := rfl
      rw [execAll_cons_of_next hload, execAll_singleton, exec_addTo, readVar_of_vars_set hvars,
        operandValue_of_vars_set hb hvars]
      exact lineAlu_add_after_write hvars _ _

theorem aluTo_vars (f : AluFn) (a b : Byte) (dst : Var) (s : State) :
    (s.aluTo f a b dst).vars = s.vars.set dst (nativeResult f a b) := by
  rw [State.aluTo_eq]

theorem aluTo_flags_z (f : AluFn) (a b : Byte) (dst : Var) (s : State) :
    (s.aluTo f a b dst).flags.z = (nativeResult f a b == 0#8) := by
  rw [State.aluTo_eq]
  rfl

theorem aluTo_flags_n (f : AluFn) (a b : Byte) (dst : Var) (s : State) :
    (s.aluTo f a b dst).flags.n = (nativeResult f a b).getLsbD 7 := by
  rw [State.aluTo_eq]
  rfl

/-- The row NEG then add of `X = A - X`: the value, Z and N are those of the difference; V and C need not be. -/
theorem lowered_negAdd {dst : Var} {a : Operand} (ha : a ≠ .var dst) (s : State) :
    ∃ t u, execAll [.neg (rdField dst), addTo dst a] s = .next t ∧
      lineAlu .sub (operandValue a s) (s.readVar dst) dst s = .next u ∧
      t.vars = u.vars ∧ t.flags.z = u.flags.z ∧ t.flags.n = u.flags.n := by
  have hneg := exec_neg (rdVar_rdField dst) s
  have hvars : (s.aluTo .sub 0#8 (s.readVar dst) dst).advance.vars = s.vars.set dst (0#8 - s.readVar dst) := by
    rw [State.advance_vars, aluTo_vars, nativeResult]
  have hresult : nativeResult .add (0#8 - s.readVar dst) (operandValue a s) =
      nativeResult .sub (operandValue a s) (s.readVar dst) := by
    simp only [nativeResult, BitVec.sub_eq_add_neg, BitVec.zero_add, BitVec.add_comm]
  rw [execAll_cons_of_next hneg, execAll_singleton, exec_addTo, readVar_of_vars_set hvars,
    operandValue_of_vars_set ha hvars]
  refine ⟨_, _, rfl, rfl, ?_, ?_, ?_⟩
  · simp only [State.advance_vars, aluTo_vars, hresult, Vars.set_set]
  · simp only [State.advance_flags, aluTo_flags_z, hresult]
  · simp only [State.advance_flags, aluTo_flags_n, hresult]

/-- An immediate whose pattern is 0 has the value 0. -/
theorem operandValue_of_isZeroImm {a : Operand} (h : isZeroImm a = true) (s : State) : operandValue a s = 0#8 := by
  cases a with
  | var v => cases h
  | imm n => exact beq_iff_eq.mp h

/-- The rows of `X = A - B` but NEG then add compute the difference with all its flags. -/
theorem lowered_assignSub {dst : Var} {a b : Operand} (h : a = .var dst ∨ b ≠ .var dst ∨ isZeroImm a = true)
    (s : State) :
    SameVarsAndFlags (execAll (lowerSub dst a b) s) (lineAlu .sub (operandValue a s) (operandValue b s) dst s) := by
  unfold lowerSub
  split
  · rename_i ha
    rw [execAll_singleton, exec_subFrom, ha]
    exact lineAlu_same _ _ _ _ _
  · rename_i ha
    split
    · rename_i hb
      have hzero : isZeroImm a = true := (h.resolve_left ha).resolve_left fun hne => hne hb
      rw [if_pos hzero, execAll_singleton, exec_neg (rdVar_rdField dst), operandValue_of_isZeroImm hzero, hb]
      exact lineAlu_same _ _ _ _ _
    · rename_i hb
      have hload := exec_loadInto dst a s
      have hvars : (s.writeVar dst (operandValue a s)).advance.vars = s.vars.set dst (operandValue a s) := rfl
      rw [execAll_cons_of_next hload, execAll_singleton, exec_subFrom, readVar_of_vars_set hvars,
        operandValue_of_vars_set hb hvars]
      exact lineAlu_sub_after_write hvars rfl _ _

/-- Settles O53: row by row of the lowering tables; the one row that loses V and C is NEG then add. -/
theorem loweredAssignmentsComputeTheSameValue : Obligations.LoweredAssignmentsComputeTheSameValue := by
  intro dst a b s
  refine ⟨lowered_assign dst a s, (lowered_assignAdd dst a b s).trans (execLine_assignAdd dst a b s), ?_⟩
  by_cases h : a = .var dst ∨ b ≠ .var dst ∨ isZeroImm a = true
  · obtain ⟨t, u, ht, hu, hvars, hflags⟩ := lowered_assignSub h s
    exact ⟨t, u, ht, hu, hvars, congrArg _ hflags, congrArg _ hflags, fun _ => hflags⟩
  · push Not at h
    obtain ⟨ha, rfl, hzero⟩ := h
    obtain ⟨t, u, ht, hu, hvars, hz, hn⟩ := lowered_negAdd ha s
    have hlower : lowerLine (.assignSub dst a (.var dst)) = [.neg (rdField dst), addTo dst a] := by
      rw [lowerLine, lowerSub, if_neg ha, if_pos rfl, if_neg hzero]
    exact ⟨t, u, hlower ▸ ht, hu, hvars, hz, hn, fun hflags => absurd hflags (by simp [ha, hzero])⟩

end Sys2Proof.Machine

/-! Invariants of every step (R30, R52, R134, R250, spec/92 D14). -/

namespace Sys2Proof.Machine

/-- The fields that a step's faults must leave alone (R250). -/
def SameCells (s t : State) : Prop :=
  t.vars = s.vars ∧ t.scratch = s.scratch ∧ t.flags = s.flags ∧ t.mirror = s.mirror ∧ t.output = s.output

/-- `t` has faulted at its PC, with the cells, the flags and the console of `s` (R13, R250). -/
def FaultedFrom (s t : State) : Prop :=
  t.halted = true ∧ (∃ kind info, t.lastFault = some { kind := kind, pc := t.pc, info := info }) ∧ SameCells s t

theorem SameCells.refl (s : State) : SameCells s s := ⟨rfl, rfl, rfl, rfl, rfl⟩

theorem SameCells.raise {s u : State} (h : SameCells s u) (kind : FaultKind) (info : FaultInfo) :
    FaultedFrom s (u.raise kind info) := ⟨rfl, ⟨kind, info, rfl⟩, h⟩

/-- An instruction leaves the fault record alone, or faults before it writes. -/
theorem ExecEffect.faults {s u t : State} {i : Instr} (h : ExecEffect u i t) (hs : SameCells s u) :
    t.lastFault = u.lastFault ∨ FaultedFrom s t := by
  cases h with
  | malformed i hw hc => exact .inr (hs.raise _ _)
  | malformedPair rd imm hrd => exact .inr (SameCells.raise (u := u.latch imm) hs _ _)
  | taken i disp =>
    rcases takeBranch_cases disp u with ⟨-, h⟩ | ⟨-, h⟩ <;> rw [h]
    · exact .inr (hs.raise _ _)
    · exact .inl rfl
  | computed i f a b v => rw [State.aluTo_eq]; exact .inl rfl
  | compared rd rs a b => rw [State.compare, State.alu_eq]; exact .inl rfl
  | comparedPair rd imm a => rw [State.compare, State.alu_eq]; exact .inl rfl
  | _ => exact .inl rfl

/-- A line leaves the fault record alone, or faults before it writes. -/
theorem LineEffect.faults {s u t : State} (h : LineEffect u t) (hs : SameCells s u) :
    t.lastFault = u.lastFault ∨ FaultedFrom s t := by
  cases h with
  | jumped taken name =>
    rcases labelBranch_cases taken name u with h | ⟨k, -, h⟩ | h <;> rw [h]
    · exact .inr (hs.raise _ _)
    · exact .inl rfl
    · exact .inl rfl
  | computed f a b v => rw [State.aluTo_eq]; exact .inl rfl
  | compared a b => rw [State.alu_eq]; exact .inl rfl
  | copied v b => rw [State.copyThroughSrc1_eq]; exact .inl rfl
  | _ => exact .inl rfl

/-- A step from no fault record leaves no pending immediate, and no record or one of a fault that wrote nothing. -/
theorem step_faults {s t : State} (hs : s.lastFault = none) (h : step s = .next t) :
    t.pend = none ∧ (t.lastFault = none ∨ FaultedFrom s t) := by
  refine step_induct (fun u => u.lastFault = none ∧ SameCells s u)
    (fun t => t.pend = none ∧ (t.lastFault = none ∨ FaultedFrom s t)) (fun u hu => ⟨rfl, .inl hu.1⟩) (fun u hu => hu)
    (fun u w evs imm _ hu => hu) ?_ ?_ ⟨hs, SameCells.refl s⟩ h
  · intro u w evs i t _ _ hu _ heffect evs'
    exact ⟨rfl, (heffect.faults (s := s) hu.2).imp_left fun hkeep => hkeep.trans hu.1⟩
  · intro u evs t _ _ hu heffect evs'
    exact ⟨rfl, (heffect.faults (s := s) hu.2).imp_left fun hkeep => hkeep.trans hu.1⟩

/-- A CPU that steps and whose fault records stand on halted CPUs only has none (R130, R250). -/
theorem lastFault_eq_none_of_step {s t : State} (hs : (s.lastFault.isNone || s.halted) = true)
    (h : step s = .next t) : s.lastFault = none := by
  rw [(step_eq_next h).1, Bool.or_false, Option.isNone_iff_eq_none] at hs
  exact hs

/-- Settles O45: the step starts without a record, and a record it leaves is that of a fault, which halts. -/
theorem everyStepEndsAtABoundary : Obligations.EveryStepEndsAtABoundary := by
  intro s t hs h
  obtain ⟨hpend, hfault⟩ := step_faults (lastFault_eq_none_of_step hs h) h
  rw [State.boundary, hpend]
  rcases hfault with hnone | ⟨hhalted, -, -⟩
  · rw [hnone]
    rfl
  · rw [hhalted, Bool.or_true]
    rfl

/-- Settles O32: the step starts without a record, so the record is that of a fault that wrote nothing. -/
theorem faultsArePrecise : Obligations.FaultsArePrecise := by
  intro s t record hs h hrecord
  rw [State.boundary, Bool.and_eq_true] at hs
  obtain ⟨hpend, hfault⟩ := step_faults (lastFault_eq_none_of_step hs.2 h) h
  rcases hfault with hnone | ⟨hhalted, ⟨kind, info, hlast⟩, hcells⟩
  · rw [hnone] at hrecord
    cases hrecord
  · rw [hlast] at hrecord
    cases hrecord
    exact ⟨hhalted, hpend, rfl, hcells⟩

/-- Settles O48: no instruction and no line changes the program or the parameters. -/
theorem noStepChangesTheProgram : Obligations.NoStepChangesTheProgram := by
  intro s t h
  refine step_induct (fun u => u.program = s.program ∧ u.params = s.params)
    (fun u => u.program = s.program ∧ u.params = s.params) (fun u hu => hu) (fun u hu => hu)
    (fun u w evs imm _ hu => hu) ?_ ?_ ⟨rfl, rfl⟩ h
  · intro u w evs i t _ _ hu _ heffect evs'
    obtain ⟨hparams, hprogram, -⟩ := heffect.keeps
    exact ⟨hprogram.trans hu.1, hparams.trans hu.2⟩
  · intro u evs t _ _ hu heffect evs'
    obtain ⟨hparams, hprogram, -⟩ := heffect.keeps
    exact ⟨hprogram.trans hu.1, hparams.trans hu.2⟩

/-- An ALU function writes the same values over equal flags and mirrors (R30, R165). -/
theorem alu_mirrored (f : AluFn) (a b : Byte) {s : State} (hs : s.mirror = s.flags) :
    (s.alu f a b).mirror = (s.alu f a b).flags := by
  rw [State.alu_eq, hs]

theorem aluTo_mirrored (f : AluFn) (a b : Byte) (v : Var) {s : State} (hs : s.mirror = s.flags) :
    (s.aluTo f a b v).mirror = (s.aluTo f a b v).flags := by
  rw [State.aluTo_eq, hs]

theorem ExecEffect.mirrored {s t : State} {i : Instr} (h : ExecEffect s i t) (hs : s.mirror = s.flags) :
    t.mirror = t.flags := by
  cases h with
  | taken i disp => rcases takeBranch_cases disp s with ⟨-, h⟩ | ⟨-, h⟩ <;> rw [h] <;> exact hs
  | computed i f a b v => simpa using aluTo_mirrored f a b v hs
  | compared rd rs a b => simpa [State.compare] using alu_mirrored .sub a b hs
  | comparedPair rd imm a => simpa [State.compare] using alu_mirrored .sub a imm (s := s.latch imm) hs
  | _ => exact hs

theorem LineEffect.mirrored {s t : State} (h : LineEffect s t) (hs : s.mirror = s.flags) : t.mirror = t.flags := by
  cases h with
  | jumped taken name => rcases labelBranch_cases taken name s with h | ⟨k, -, h⟩ | h <;> rw [h] <;> exact hs
  | computed f a b v => simpa using aluTo_mirrored f a b v hs
  | compared a b => simpa using alu_mirrored .sub a b hs
  | copied v b => rw [State.copyThroughSrc1_eq]; exact hs
  | _ => exact hs

/-- Settles O46: an ALU function writes the same values over equal flags and mirrors, and nothing else writes either. -/
theorem everyStepKeepsTheMirrors : Obligations.EveryStepKeepsTheMirrors := by
  intro s t hs h
  rw [State.mirrored, beq_iff_eq] at hs ⊢
  exact step_induct (fun u => u.mirror = u.flags) (fun u => u.mirror = u.flags) (fun u hu => hu) (fun u hu => hu)
    (fun u w evs imm _ hu => hu) (fun u w evs i t _ _ hu _ heffect _ => heffect.mirrored hu)
    (fun u evs t _ _ hu heffect _ => heffect.mirrored hu) hs h

/-- No instruction moves the PC by more than the longest branch (R104, R212). -/
theorem ExecEffect.pc_le {s t : State} {i : Instr} (h : ExecEffect s i t) : t.pc ≤ s.pc + 128 := by
  cases h with
  | taken i disp =>
    have hdisp := toInt_range disp
    rcases takeBranch_cases disp s with ⟨-, h⟩ | ⟨-, h⟩ <;> rw [h]
    · exact Nat.le_add_right _ _
    · simp only [branchTarget_eq]
      omega
  | computed i f a b v => rw [State.aluTo_eq]; simp
  | compared rd rs a b => rw [State.compare, State.alu_eq]; simp
  | comparedPair rd imm a => rw [State.compare, State.alu_eq]; simp
  | malformed i hw hc => exact Nat.le_add_right _ _
  | _ => simp [State.raiseMalformed]

/-- A declared label of a program whose labels are in range is an index or the end (R100). -/
theorem labelIndex_le {s : State} {name : Text} {k : Nat} (hs : s.labelsInRange = true)
    (h : s.labelIndex name = some k) : k ≤ s.microLines.length := by
  cases hp : s.program with
  | isa items =>
    rw [State.labelIndex, hp] at h
    cases h
  | micro lines labels =>
    rw [labelIndex_micro hp] at h
    rw [State.labelsInRange, hp, List.all_eq_true] at hs
    rw [State.microLines, hp]
    exact of_decide_eq_true (hs _ (lookupLabel_mem h))

/-- A line goes to the next line or to a label (R140, R211). -/
theorem LineEffect.pc_le {s t : State} (h : LineEffect s t) (hs : s.labelsInRange = true) :
    t.pc ≤ max (s.pc + 1) s.microLines.length := by
  cases h with
  | jumped taken name =>
    rcases labelBranch_cases taken name s with h | ⟨k, hk, h⟩ | h <;> rw [h]
    · simp
    · exact le_max_of_le_right (labelIndex_le hs hk)
    · exact le_max_left _ _
  | computed f a b v => rw [State.aluTo_eq]; exact le_max_left _ _
  | compared a b => rw [State.alu_eq]; exact le_max_left _ _
  | copied v b => rw [State.copyThroughSrc1_eq]; exact le_max_left _ _
  | halted => simp
  | _ => exact le_max_left _ _

theorem programLength_of_program {s t : State} (h : t.program = s.program) : t.programLength = s.programLength := by
  simp only [State.programLength, State.isaItems, State.microLines, h]

theorem isaItems_le_programLength (s : State) : s.isaItems.length ≤ s.programLength := Nat.le_add_right _ _

theorem microLines_le_programLength (s : State) : s.microLines.length ≤ s.programLength := Nat.le_add_left _ _

theorem labelsInRange_of_program {s t : State} (h : t.program = s.program) : t.labelsInRange = s.labelsInRange := by
  simp only [State.labelsInRange, h]

/-- Settles O47: an item executed stands before the end, and neither a branch nor a label leads further than 127 past
it. -/
theorem everyStepKeepsThePcInReach : Obligations.EveryStepKeepsThePcInReach := by
  intro s t hlabels hreach h
  have hprogram := (noStepChangesTheProgram s t h).1
  rw [labelsInRange_of_program hprogram]
  rw [State.pcInReach, decide_eq_true_eq] at hreach ⊢
  rw [programLength_of_program hprogram]
  refine ⟨hlabels, step_induct (fun u => u.program = s.program ∧ u.pc ≤ s.programLength + 127)
    (fun u => u.pc ≤ s.programLength + 127) (fun u hu => hu.2) (fun u hu => hu) ?_ ?_ ?_ ⟨rfl, hreach⟩ h⟩
  · intro u w evs imm hlt hu
    have hitems := isaItems_le_programLength u
    rw [programLength_of_program hu.1] at hitems
    exact ⟨hu.1, show u.pc + 1 ≤ _ by omega⟩
  · intro u w evs i t _ hlt hu _ heffect evs'
    have hitems := isaItems_le_programLength u
    have hpc : t.pc ≤ u.pc + 128 := heffect.pc_le
    rw [programLength_of_program hu.1] at hitems
    show t.pc ≤ _
    omega
  · intro u evs t _ hlt hu heffect evs'
    have hlines := microLines_le_programLength u
    have hpc : t.pc ≤ max (u.pc + 1) u.microLines.length :=
      heffect.pc_le (by rw [← labelsInRange_of_program hu.1] at hlabels; exact hlabels)
    rw [programLength_of_program hu.1] at hlines
    show t.pc ≤ _
    omega

end Sys2Proof.Machine

/-! The cells of the store (R53 to R55, R273). -/

namespace Sys2Proof.Machine

/-- A bit cell takes 0 and 1 as they are (R54). -/
theorem bitValue_of_bit {value : Int} (h : value = 0 ∨ value = 1) : bitValue (value == 1) = value := by
  rcases h with rfl | rfl <;> rfl

theorem Scratch.get_set_other (r q : ScratchReg) (b : Byte) (sc : Scratch) (h : q ≠ r) :
    (sc.set r b).get q = sc.get q := by
  cases r <;> cases q <;> first
    | rfl
    | exact absurd rfl h

theorem Scratch.cy_set (r : ScratchReg) (b : Byte) (sc : Scratch) : (sc.set r b).cy = sc.cy := by
  cases r <;> rfl

theorem Scratch.getCell_setCell_same (r : ScratchReg) (k : Fin 8) (b : Bool) (sc : Scratch) :
    (sc.setCell r k b).getCell r k = b := by
  rw [Scratch.getCell, Scratch.setCell, Scratch.set_get, getLsbD_setBit, if_pos rfl]

theorem Scratch.getCell_setCell_other (r q : ScratchReg) (k j : Fin 8) (b : Bool) (sc : Scratch)
    (h : ¬ (q = r ∧ j = k)) : (sc.setCell r k b).getCell q j = sc.getCell q j := by
  rw [Scratch.getCell, Scratch.setCell]
  by_cases hr : q = r
  · subst hr
    have hk : j.val ≠ k.val := fun hv => h ⟨rfl, Fin.ext hv⟩
    rw [Scratch.set_get, getLsbD_setBit, if_neg hk, Scratch.getCell]
  · rw [Scratch.get_set_other r q _ sc hr, Scratch.getCell]

theorem cellGet_writeVar_other {c : CellName} {v : Var} (h : c ≠ .var v) (b : Byte) (s : State) :
    (s.writeVar v b).cellGet c = s.cellGet c := by
  cases c with
  | var u =>
    rw [State.cellGet, State.readVar_writeVar_other v u b s fun hu => h (hu ▸ rfl), State.cellGet]
  | _ => rfl

theorem cellGet_setCell_other {c : CellName} {r : ScratchReg} {k : Fin 8} (h : c ≠ .scratch r k) (b : Bool)
    (s : State) :
    ({ s with scratch := s.scratch.setCell r k b } : State).cellGet c = s.cellGet c := by
  cases c with
  | scratch q j =>
    refine congrArg bitValue (Scratch.getCell_setCell_other r q k j b s.scratch ?_)
    rintro ⟨rfl, rfl⟩
    exact h rfl
  | cy => exact congrArg bitValue (Scratch.cy_set r _ s.scratch)
  | _ => rfl

theorem cellGet_setCy_other {c : CellName} (h : c ≠ .cy) (b : Bool) (s : State) :
    ({ s with scratch := { s.scratch with cy := b } } : State).cellGet c = s.cellGet c := by
  cases c with
  | cy => exact absurd rfl h
  | scratch q j => cases q <;> rfl
  | _ => rfl

theorem cellGet_writeMirror_other {c : CellName} {f : FlagName} (h : c ≠ .flag f) (b : Bool) (s : State) :
    (s.writeMirror f b).cellGet c = s.cellGet c := by
  cases c with
  | flag g => exact congrArg bitValue (Flags.get_set_other f g b s.mirror fun hg => h (hg ▸ rfl))
  | _ => rfl

/-- Settles O10, cell by cell: what a write leaves to be read, and the other cells. -/
theorem cellReadsLastWrite : Obligations.CellReadsLastWrite := by
  intro s t c value h
  cases c with
  | var v =>
    cases h
    refine ⟨?_, fun c' hc' => cellGet_writeVar_other hc' _ s, rfl⟩
    rw [State.cellGet, State.readVar_writeVar_same, toInt_byteOfInt]
  | scratch r k =>
    obtain ⟨hbit, h⟩ := Option.ite_none_right_eq_some.mp h
    cases h
    refine ⟨?_, fun c' hc' => cellGet_setCell_other hc' _ s, rfl⟩
    rw [State.cellGet, Scratch.getCell_setCell_same, bitValue_of_bit hbit]
  | cy =>
    obtain ⟨hbit, h⟩ := Option.ite_none_right_eq_some.mp h
    cases h
    exact ⟨bitValue_of_bit hbit, fun c' hc' => cellGet_setCy_other hc' _ s, rfl⟩
  | flag f =>
    obtain ⟨hbit, h⟩ := Option.ite_none_right_eq_some.mp h
    cases h
    refine ⟨?_, fun c' hc' => cellGet_writeMirror_other hc' _ s, rfl⟩
    rw [State.cellGet, State.writeMirror_mirror, Flags.get_set_same, bitValue_of_bit hbit]

/-- A store whose cells are all zero or false reads 0 everywhere (R44, R54). -/
theorem cellGet_of_zero {s : State} (hvars : s.vars = Vars.zero) (hscratch : s.scratch = Scratch.zero)
    (hmirror : s.mirror = Flags.clear) (c : CellName) : s.cellGet c = 0 := by
  cases c with
  | var v =>
    rw [State.cellGet, State.readVar, hvars]
    cases v <;> rfl
  | scratch r k =>
    rw [State.cellGet, Scratch.getCell, hscratch]
    cases r <;> exact congrArg bitValue (BitVec.getLsbD_zero)
  | cy =>
    rw [State.cellGet, hscratch]
    rfl
  | flag f =>
    rw [State.cellGet, hmirror]
    cases f <;> rfl

/-- Settles O11: the store is zero, and no register of the CPU is a cell. -/
theorem clearStoreZeroesEveryCell : Obligations.ClearStoreZeroesEveryCell :=
  fun _ => ⟨cellGet_of_zero rfl rfl rfl, rfl⟩

end Sys2Proof.Machine

/-! One step, by mode (R130, R131, R141, R142, R144, R274). -/

namespace Sys2Proof.Machine

theorem step_of_halted {s : State} (h : s.halted = true) : step s = .fault .halted := if_pos h

theorem step_of_isa {s : State} (hrun : s.halted = false) (hmode : s.mode = .isa) :
    step s = isaLoop (s.isaItems.length - s.pc) s.clearPend := by
  rw [step, stepCycle, hrun, hmode]
  rfl

theorem step_of_micro {s : State} (hrun : s.halted = false) (hmode : s.mode = .micro) : step s = microCycle s := by
  rw [step, stepCycle, hrun, hmode]
  rfl

theorem microCycle_next (s : State) : ∃ t, microCycle s = .next t := by
  unfold microCycle
  split
  · exact ⟨_, rfl⟩
  · obtain ⟨t, ht⟩ := execLine_next _ _
    rw [ht]
    exact ⟨_, rfl⟩

/-- A CPU that runs steps in either mode (R130). -/
theorem step_next_of_running {s : State} (hrun : s.halted = false) : ∃ t, step s = .next t := by
  cases hmode : s.mode with
  | isa =>
    rw [step_of_isa hrun hmode]
    exact isaLoop_next _ _
  | micro =>
    rw [step_of_micro hrun hmode]
    exact microCycle_next s

/-- Settles O44: a running CPU steps, and `stepOp` reports it; a halted one has no successor. -/
theorem runningCpuAlwaysSteps : Obligations.RunningCpuAlwaysSteps := by
  intro s
  constructor
  · intro hrun
    obtain ⟨t, ht⟩ := step_next_of_running hrun
    exact ⟨t, ht, by rw [stepOp, ht]⟩
  · intro hhalted
    have hstep := step_of_halted hhalted
    exact ⟨hstep, by rw [stepOp, hstep]⟩

theorem getElem_microLines_of_end {s : State} (h : s.programLength ≤ s.pc) : s.microLines[s.pc]? = none :=
  List.getElem?_eq_none ((microLines_le_programLength s).trans h)

/-- Settles O43: past the end there is no word and no line to fetch. -/
theorem fetchPastEndHalts : Obligations.FetchPastEndHalts := by
  intro s hrun hend
  cases hmode : s.mode with
  | isa =>
    have hfuel : s.isaItems.length - s.pc = 0 := Nat.sub_eq_zero_of_le ((isaItems_le_programLength s).trans hend)
    rw [step_of_isa hrun hmode, hfuel]
    rfl
  | micro =>
    rw [step_of_micro hrun hmode, microCycle, getElem_microLines_of_end hend]
    rfl

/-- Settles O40: a line at the PC is parsed and executed. -/
theorem stepRunsTheParsedLine : Obligations.StepRunsTheParsedLine := by
  intro s lines labels line hrun hprogram hline
  have hmode : s.mode = .micro := by rw [State.mode, hprogram]
  have hlines : s.microLines = lines := by rw [State.microLines, hprogram]
  rw [step_of_micro hrun hmode, microCycle, hlines, hline]

/-- Settles O50: the power-on state's fields are constants, and its program is empty. -/
theorem resetEstablishesTheResetState : Obligations.ResetEstablishesTheResetState := by
  refine ⟨rfl, fun p => ⟨rfl, rfl⟩, ?_, fun s => rfl⟩
  rintro p m s rfl
  have hlength : (State.powerOn p m).programLength = 0 := by cases m <;> rfl
  have hstep := fetchPastEndHalts (State.powerOn p m) rfl hlength.le
  have hmode : (State.powerOn p m).mode = m := by cases m <;> rfl
  have hlabels : (State.powerOn p m).labelsInRange = true := by cases m <;> rfl
  have hreach : (State.powerOn p m).pcInReach = true := decide_eq_true (Nat.zero_le _)
  exact ⟨hmode, rfl, rfl, rfl, rfl, rfl, rfl, rfl, rfl, rfl, rfl, cellGet_of_zero rfl rfl rfl, rfl, rfl, rfl, rfl,
    hreach, hlabels, rfl, hstep⟩

/-! Fetching in ISA mode (R132, R136). -/

theorem fetchInstr_of_end {s : State} (h : s.wordsAtPc = []) : s.fetchInstr = none := by
  rw [State.fetchInstr, h]

/-- A one-word instruction passes one word through `ir`. -/
theorem fetchInstr_single {s : State} {w : Word} {ws rest : List Word} {i : Instr} (h : s.wordsAtPc = w :: ws)
    (hdecode : decode (w :: ws) = .ok (i, rest)) (hsize : i.size = 1) :
    s.fetchInstr = some (i, s.fetchWord s.pc w) := by
  rw [State.fetchInstr, h]
  simp only [hdecode, hsize]

/-- The CMPI pair passes both its words through `ir`, one after the other. -/
theorem fetchInstr_pair {s : State} {w w2 : Word} {ws rest : List Word} {rd : BitVec 4} {imm : Byte}
    (h : s.wordsAtPc = w :: w2 :: ws) (hdecode : decode (w :: w2 :: ws) = .ok (.cmpi rd imm, rest)) :
    s.fetchInstr = some (.cmpi rd imm, (s.fetchWord s.pc w).fetchWord (s.pc + 1) w2) := by
  rw [State.fetchInstr, h]
  simp only [hdecode, Instr.size]

theorem isaLoop_of_end {s : State} (h : s.fetchInstr = none) (fuel : Nat) : isaLoop fuel s = .next s.haltPastEnd := by
  cases fuel with
  | zero => rfl
  | succ fuel => rw [isaLoop, h]

theorem isaLoop_of_instr {s s1 : State} {i : Instr} (h : s.fetchInstr = some (i, s1)) (hi : isPrefixWord i = false)
    (fuel : Nat) : isaLoop (fuel + 1) s = executePhase i s1 := by
  rw [isaLoop, h]
  simp only [hi, Bool.false_eq_true, if_false]

theorem isaLoop_of_ext {s s1 : State} {imm : Byte} (h : s.fetchInstr = some (.ext imm, s1)) (fuel : Nat) :
    isaLoop (fuel + 1) s = isaLoop fuel (s1.latch imm) := by
  rw [isaLoop, h]
  rfl

theorem isPrefixWord_eq_false {i : Instr} (h : ∀ imm, i ≠ .ext imm) : isPrefixWord i = false := by
  cases i with
  | ext imm => exact absurd rfl (h imm)
  | _ => rfl

theorem length_sub_eq_succ {s : State} {w : Word} {ws : List Word} (h : s.wordsAtPc = w :: ws) :
    s.isaItems.length - s.pc = s.isaItems.length - (s.pc + 1) + 1 := by
  have hlength := congrArg List.length h
  simp only [State.wordsAtPc, List.length_map, List.length_drop, List.length_cons] at hlength
  omega

/-- Settles O39: the step fetches the decoded instruction, and runs it or goes on after it. -/
theorem stepRunsTheDecodedInstruction : Obligations.StepRunsTheDecodedInstruction := by
  intro s items i w ws rest hrun hprogram hwords hdecode
  have hmode : s.mode = .isa := by rw [State.mode, hprogram]
  have hitems : s.isaItems = items := by rw [State.isaItems, hprogram]
  have hatPc : s.clearPend.wordsAtPc = w :: ws := by rw [← hwords, ← hitems]; rfl
  have hfuel := length_sub_eq_succ hatPc
  rw [step_of_isa hrun hmode]
  refine ⟨fun hext hcmpi => ?_, ?_, ?_⟩
  · have hsize := (size_eq_one_or_cmpi i).resolve_right fun ⟨rd, imm, hi⟩ => hcmpi rd imm hi
    exact hfuel ▸ isaLoop_of_instr (fetchInstr_single hatPc hdecode hsize) (isPrefixWord_eq_false hext) _
  · rintro rd imm w2 ws2 rfl rfl
    exact hfuel ▸ isaLoop_of_instr (fetchInstr_pair hatPc hdecode) rfl _
  · rintro imm rfl
    rw [exec_ext, ← hitems]
    exact hfuel ▸ isaLoop_of_ext (fetchInstr_single hatPc hdecode rfl) _

end Sys2Proof.Machine

/-! What the operations do not read: a mask `m` forgets some fields of a state, and an operation respects it when
states that `m` makes equal stay equal under `m` (R29, R30, R134). -/

namespace Sys2Proof.Machine

/-- `f` does not read what `m` forgets, but where it forgets the result of it. -/
def Respects (m f : State → State) : Prop := ∀ s u, m s = m u → m (f s) = m (f u)

theorem respects_of_eq {m f : State → State} (h : ∀ s, m (f (m s)) = m (f s)) : Respects m f := by
  intro s u hsu
  rw [← h s, hsu, h u]

/-- What `g` reads of a state is equal in states that a mask makes equal, if it is none of what the mask forgets. -/
theorem eq_of_masked {α : Type} {m : State → State} (g : State → α) {s u : State} (h : m s = m u)
    (hg : ∀ s, g (m s) = g s) : g s = g u := by
  rw [← hg s, h, hg u]

/-- A mask of fields that `exec` does not read, `pend` aside. -/
structure Mask (m : State → State) : Prop where
  readVar : ∀ v s, (m s).readVar v = s.readVar v
  pc : ∀ s, (m s).pc = s.pc
  program : ∀ s, (m s).program = s.program
  fetchWord : ∀ c w s, (m s).fetchWord c w = m (s.fetchWord c w)
  emit : ∀ e, Respects m (State.emit e)
  haltPastEnd : Respects m State.haltPastEnd
  cond : ∀ c s, condHolds c (m s).flags = condHolds c s.flags
  advance : Respects m State.advance
  halt : Respects m State.halt
  raiseMalformed : Respects m State.raiseMalformed
  clearPend : Respects m State.clearPend
  latch : ∀ imm, Respects m (State.latch imm)
  takeBranch : ∀ disp, Respects m (State.takeBranch disp)
  writeVar : ∀ v b, Respects m (State.writeVar v b)
  alu : ∀ f a b, Respects m (State.alu f a b)
  aluTo : ∀ f a b v, Respects m (State.aluTo f a b v)

/-- The results of two runs are equal under a mask. -/
def SameUnder (m : State → State) (r r' : Result) : Prop :=
  onNext r (fun t => .next (m t)) = onNext r' (fun t => .next (m t))

theorem sameUnder_next {m : State → State} {t u : State} (h : m t = m u) : SameUnder m (.next t) (.next u) :=
  congrArg Host.Outcome.next h

theorem SameUnder.cases {m : State → State} {r r' : Result} (h : SameUnder m r r') :
    r = r' ∨ ∃ s u, r = .next s ∧ r' = .next u ∧ m s = m u := by
  cases r with
  | next s =>
    cases r' with
    | next u => exact .inr ⟨s, u, rfl, rfl, Host.Outcome.next.inj h⟩
    | fault e => cases h
    | refused e => cases h
  | fault e =>
    cases r' with
    | next u => cases h
    | fault e' => exact .inl h
    | refused e' => cases h
  | refused e =>
    cases r' with
    | next u => cases h
    | fault e' => cases h
    | refused e' => exact .inl h

/-- Going on from results equal under a mask, by what reads nothing it forgets. -/
theorem SameUnder.onNext_eq {m : State → State} {r r' : Result} {f g : State → Result} (h : SameUnder m r r')
    (hfg : ∀ s u, m s = m u → f s = g u) : onNext r f = onNext r' g := by
  rcases h.cases with rfl | ⟨s, u, rfl, rfl, hsu⟩
  · cases r with
    | next s => exact hfg s s rfl
    | fault e => rfl
    | refused e => rfl
  · exact hfg s u hsu

/-- Going on from results equal under a mask, by what respects it. -/
theorem SameUnder.andThen {m : State → State} {r r' : Result} {f g : State → Result} (h : SameUnder m r r')
    (hfg : ∀ s u, m s = m u → SameUnder m (f s) (g u)) : SameUnder m (onNext r f) (onNext r' g) := by
  rcases h.cases with rfl | ⟨s, u, rfl, rfl, hsu⟩
  · cases r with
    | next s => exact hfg s s rfl
    | fault e => rfl
    | refused e => rfl
  · exact hfg s u hsu

/-- Fetching from a masked state fetches the same instruction and leaves the masked state (R132). -/
theorem Mask.fetchInstr_masked {m : State → State} (hm : Mask m) (s : State) :
    (m s).fetchInstr = s.fetchInstr.map (Prod.map id m) := by
  have hwords : (m s).wordsAtPc = s.wordsAtPc := by
    simp only [State.wordsAtPc, State.isaItems, hm.pc, hm.program]
  unfold State.fetchInstr
  rw [hwords]
  split
  · rfl
  · split
    · rfl
    · dsimp only
      split <;> simp [hm.fetchWord, hm.pc]

section

variable {m : State → State} (hm : Mask m) {s u : State} (h : m s = m u)

include hm h

theorem Mask.readVar_eq (v : Var) : s.readVar v = u.readVar v := eq_of_masked (State.readVar v) h (hm.readVar v)

theorem Mask.sameUnder_advanced : SameUnder m (.next s.advance) (.next u.advance) := sameUnder_next (hm.advance s u h)

theorem Mask.sameUnder_moved (v : Var) {b b' : Byte} (hb : b = b') :
    SameUnder m (.next (s.writeVar v b).advance) (.next (u.writeVar v b').advance) := by
  subst hb
  exact sameUnder_next (hm.advance _ _ (hm.writeVar v b s u h))

theorem Mask.sameUnder_computed (f : AluFn) (v : Var) {a a' b b' : Byte} (ha : a = a') (hb : b = b') :
    SameUnder m (.next (s.aluTo f a b v).advance) (.next (u.aluTo f a' b' v).advance) := by
  subst ha hb
  exact sameUnder_next (hm.advance _ _ (hm.aluTo f a b v s u h))

theorem Mask.sameUnder_compared {a a' b b' : Byte} (ha : a = a') (hb : b = b') :
    SameUnder m (.next (s.compare a b)) (.next (u.compare a' b')) := by
  subst ha hb
  exact sameUnder_next (hm.advance _ _ (hm.clearPend _ _ (hm.alu .sub a b s u h)))

theorem Mask.sameUnder_withRd (rd : BitVec 4) {k k' : Var → Result} (hk : ∀ v, SameUnder m (k v) (k' v)) :
    SameUnder m (withRd rd s k) (withRd rd u k') := by
  unfold withRd
  split
  · exact hk _
  · exact sameUnder_next (hm.raiseMalformed s u h)

theorem Mask.sameUnder_withRdRs (rd : BitVec 4) (rs : Byte) {k k' : Var → Var → Result}
    (hk : ∀ v1 v2, SameUnder m (k v1 v2) (k' v1 v2)) :
    SameUnder m (withRdRs rd rs s k) (withRdRs rd rs u k') := by
  unfold withRdRs
  split
  · exact hk _ _
  · exact sameUnder_next (hm.raiseMalformed s u h)

theorem Mask.sameUnder_condBranch (c : Cond) (disp : Byte) :
    SameUnder m (.next (s.condBranch c disp)) (.next (u.condBranch c disp)) := by
  have hc : condHolds c s.flags = condHolds c u.flags := eq_of_masked (fun r => condHolds c r.flags) h (hm.cond c)
  unfold State.condBranch
  rw [hc]
  split
  · exact sameUnder_next (hm.takeBranch disp s u h)
  · exact hm.sameUnder_advanced h

/-- The word CMP, from equal pending immediates. -/
theorem Mask.sameUnder_compareWord (rd : BitVec 4) (rs : Byte) (hpend : s.pend = u.pend) :
    SameUnder m (compareWord rd rs s) (compareWord rd rs u) := by
  unfold compareWord
  rw [hpend]
  split
  · exact hm.sameUnder_withRd h rd fun v => hm.sameUnder_compared h (hm.readVar_eq h v) rfl
  · exact hm.sameUnder_withRdRs h rd rs fun v1 v2 => hm.sameUnder_compared h (hm.readVar_eq h v1) (hm.readVar_eq h v2)

/-- `exec` does not read what a mask forgets; a CMP word reads `pend`. -/
theorem Mask.sameUnder_exec (i : Instr) (hi : s.pend = u.pend ∨ ∀ rd rs, i ≠ .cmp rd rs) :
    SameUnder m (exec i s) (exec i u) := by
  have hread := hm.readVar_eq h
  cases i with
  | ext imm => exact sameUnder_next (hm.latch imm s u h)
  | nop => exact hm.sameUnder_advanced h
  | halt => exact sameUnder_next (hm.halt s u h)
  | mov rd rs => exact hm.sameUnder_withRdRs h rd rs fun v1 v2 => hm.sameUnder_moved h v1 (hread v2)
  | movi rd imm => exact hm.sameUnder_withRd h rd fun v => hm.sameUnder_moved h v rfl
  | add rd rs => exact hm.sameUnder_withRdRs h rd rs fun v1 v2 => hm.sameUnder_computed h .add v1 (hread v1) (hread v2)
  | addi rd imm => exact hm.sameUnder_withRd h rd fun v => hm.sameUnder_computed h .add v (hread v) rfl
  | sub rd rs => exact hm.sameUnder_withRdRs h rd rs fun v1 v2 => hm.sameUnder_computed h .sub v1 (hread v1) (hread v2)
  | subi rd imm => exact hm.sameUnder_withRd h rd fun v => hm.sameUnder_computed h .sub v (hread v) rfl
  | and rd rs => exact hm.sameUnder_withRdRs h rd rs fun v1 v2 => hm.sameUnder_computed h .and v1 (hread v1) (hread v2)
  | or rd rs => exact hm.sameUnder_withRdRs h rd rs fun v1 v2 => hm.sameUnder_computed h .or v1 (hread v1) (hread v2)
  | xor rd rs => exact hm.sameUnder_withRdRs h rd rs fun v1 v2 => hm.sameUnder_computed h .xor v1 (hread v1) (hread v2)
  | shl rd => exact hm.sameUnder_withRd h rd fun v => hm.sameUnder_computed h .shl v (hread v) rfl
  | shr rd => exact hm.sameUnder_withRd h rd fun v => hm.sameUnder_computed h .shr v (hread v) rfl
  | neg rd => exact hm.sameUnder_withRd h rd fun v => hm.sameUnder_computed h .sub v rfl (hread v)
  | cmp rd rs => exact hm.sameUnder_compareWord h rd rs (hi.resolve_right fun hne => hne rd rs rfl)
  | cmpi rd imm => exact hm.sameUnder_compareWord (hm.latch imm s u h) rd 0#8 rfl
  | jmp disp => exact sameUnder_next (hm.takeBranch disp s u h)
  | beq disp => exact hm.sameUnder_condBranch h .eq disp
  | bne disp => exact hm.sameUnder_condBranch h .ne disp
  | bpl disp => exact hm.sameUnder_condBranch h .pl disp
  | bmi disp => exact hm.sameUnder_condBranch h .mi disp
  | bvc disp => exact hm.sameUnder_condBranch h .vc disp
  | bvs disp => exact hm.sameUnder_condBranch h .vs disp
  | bcc disp => exact hm.sameUnder_condBranch h .cc disp
  | bcs disp => exact hm.sameUnder_condBranch h .cs disp
  | reserved low disp => exact sameUnder_next (hm.raiseMalformed s u h)

/-- Fetching reads nothing of what a mask forgets (R132). -/
theorem Mask.fetchInstr_cases :
    (s.fetchInstr = none ∧ u.fetchInstr = none) ∨
      ∃ i s1 u1, s.fetchInstr = some (i, s1) ∧ u.fetchInstr = some (i, u1) ∧ m s1 = m u1 := by
  have hsu : s.fetchInstr.map (Prod.map id m) = u.fetchInstr.map (Prod.map id m) := by
    rw [← hm.fetchInstr_masked, h, hm.fetchInstr_masked]
  cases hs : s.fetchInstr with
  | none =>
    rw [hs] at hsu
    exact .inl ⟨rfl, Option.map_eq_none_iff.mp hsu.symm⟩
  | some p =>
    obtain ⟨i, s1⟩ := p
    rw [hs] at hsu
    obtain ⟨⟨j, u1⟩, hu, hp⟩ := Option.map_eq_some_iff.mp hsu.symm
    obtain ⟨rfl, hmask⟩ := Prod.mk.inj hp
    exact .inr ⟨_, s1, u1, rfl, hu, hmask.symm⟩

end

theorem Mask.beginExecute {m : State → State} (hm : Mask m) (i : Instr) : Respects m (beginExecute i) := by
  intro s u h
  unfold Machine.beginExecute
  split
  · exact hm.emit _ s u h
  · exact h

theorem Mask.finishExecute {m : State → State} (hm : Mask m) (i : Instr) : Respects m (finishExecute i) := by
  intro s u h
  unfold Machine.finishExecute
  split
  · exact hm.emit _ _ _ (hm.clearPend s u h)
  · exact hm.clearPend s u h

end Sys2Proof.Machine

/-! The flag C and the mirrors (R29, R30). -/

namespace Sys2Proof.Machine

/-- Forgetting the flag C and the four mirror cells. -/
def forgetCarry (s : State) : State := { s with flags := { s.flags with c := false }, mirror := Flags.clear }

theorem respects_forgetCarry_alu (f : AluFn) (a b : Byte) : Respects forgetCarry (State.alu f a b) :=
  respects_of_eq fun s => by rw [State.alu_eq, State.alu_eq]; rfl

theorem respects_forgetCarry_aluTo (f : AluFn) (a b : Byte) (v : Var) : Respects forgetCarry (State.aluTo f a b v) :=
  respects_of_eq fun s => by rw [State.aluTo_eq, State.aluTo_eq]; rfl

theorem respects_forgetCarry_takeBranch (disp : Byte) : Respects forgetCarry (State.takeBranch disp) := by
  refine respects_of_eq fun s => ?_
  have htarget : branchTarget disp (forgetCarry s) = branchTarget disp s := rfl
  unfold State.takeBranch
  rw [htarget]
  split <;> rfl

/-- No instruction reads C or a mirror: BCC and BCS test V (R220, R221). -/
theorem mask_forgetCarry : Mask forgetCarry where
  readVar _ _ := rfl
  pc _ := rfl
  program _ := rfl
  fetchWord _ _ _ := rfl
  emit _ := respects_of_eq fun _ => rfl
  haltPastEnd := respects_of_eq fun _ => rfl
  cond c _ := by cases c <;> rfl
  advance := respects_of_eq fun _ => rfl
  halt := respects_of_eq fun _ => rfl
  raiseMalformed := respects_of_eq fun _ => rfl
  clearPend := respects_of_eq fun _ => rfl
  latch _ := respects_of_eq fun _ => rfl
  takeBranch := respects_forgetCarry_takeBranch
  writeVar _ _ := respects_of_eq fun _ => rfl
  alu := respects_forgetCarry_alu
  aluTo := respects_forgetCarry_aluTo

theorem pend_of_forgetCarry_eq {s u : State} (h : forgetCarry s = forgetCarry u) : s.pend = u.pend :=
  eq_of_masked State.pend h fun _ => rfl

theorem executePhase_forgetCarry (i : Instr) {s u : State} (h : forgetCarry s = forgetCarry u) :
    SameUnder forgetCarry (executePhase i s) (executePhase i u) := by
  have hbegin := mask_forgetCarry.beginExecute i s u h
  refine (mask_forgetCarry.sameUnder_exec hbegin i (.inl (pend_of_forgetCarry_eq hbegin))).andThen fun t v htv => ?_
  exact sameUnder_next (mask_forgetCarry.finishExecute i t v htv)

/-- The loop of ISA mode reads neither C nor a mirror, by induction on the words to the end. -/
theorem isaLoop_forgetCarry : ∀ (fuel : Nat) {s u : State}, forgetCarry s = forgetCarry u →
    SameUnder forgetCarry (isaLoop fuel s) (isaLoop fuel u) := by
  intro fuel
  induction fuel with
  | zero => exact fun {s u} h => sameUnder_next (mask_forgetCarry.haltPastEnd s u h)
  | succ fuel ih =>
    intro s u h
    unfold isaLoop
    rcases mask_forgetCarry.fetchInstr_cases h with ⟨hs, hu⟩ | ⟨i, s1, u1, hs, hu, h1⟩
    · rw [hs, hu]
      exact sameUnder_next (mask_forgetCarry.haltPastEnd s u h)
    · rw [hs, hu]
      dsimp only
      split
      · exact (mask_forgetCarry.sameUnder_exec h1 i (.inl (pend_of_forgetCarry_eq h1))).andThen fun t v => ih
      · exact executePhase_forgetCarry i h1

theorem operandValue_forgetCarry {s u : State} (h : forgetCarry s = forgetCarry u) (p : Operand) :
    operandValue p s = operandValue p u := by
  cases p with
  | var v => exact mask_forgetCarry.readVar_eq h v
  | imm n => rfl

theorem respects_forgetCarry_print (v : Var) : Respects forgetCarry (State.print v) := respects_of_eq fun _ => rfl

theorem respects_forgetCarry_copy (b : Byte) (v : Var) : Respects forgetCarry (State.copyThroughSrc1 b v) :=
  respects_of_eq fun s => by rw [State.copyThroughSrc1_eq, State.copyThroughSrc1_eq]; rfl

theorem respects_forgetCarry_labelBranch (taken : Bool) (name : Text) :
    Respects forgetCarry (State.labelBranch taken name) := by
  refine respects_of_eq fun s => ?_
  have hindex : (forgetCarry s).labelIndex name = s.labelIndex name := rfl
  unfold State.labelBranch
  rw [hindex]
  split
  · rfl
  · split <;> rfl

/-- No line reads C or a mirror. -/
theorem execLine_forgetCarry (op : LineOp) {s u : State} (h : forgetCarry s = forgetCarry u) :
    SameUnder forgetCarry (execLine op s) (execLine op u) := by
  have hm := mask_forgetCarry
  have hread := hm.readVar_eq h
  have hvalue := operandValue_forgetCarry h
  have hcompared {a a' b b' : Byte} (ha : a = a') (hb : b = b') :
      SameUnder forgetCarry (lineCompare a b s) (lineCompare a' b' u) := by
    subst ha hb
    exact sameUnder_next (hm.advance _ _ (hm.alu .sub a b s u h))
  cases op with
  | nop => exact hm.sameUnder_advanced h
  | halt => exact sameUnder_next (hm.halt s u h)
  | label name => exact hm.sameUnder_advanced h
  | print v => exact sameUnder_next (hm.advance _ _ (respects_forgetCarry_print v s u h))
  | mov v1 v2 => exact hm.sameUnder_moved h v1 (hread v2)
  | movi v n => exact hm.sameUnder_moved h v rfl
  | add v1 v2 => exact hm.sameUnder_computed h .add v1 (hread v1) (hread v2)
  | addi v n => exact hm.sameUnder_computed h .add v (hread v) rfl
  | sub v1 v2 => exact hm.sameUnder_computed h .sub v1 (hread v1) (hread v2)
  | subi v n => exact hm.sameUnder_computed h .sub v (hread v) rfl
  | neg v => exact hm.sameUnder_computed h .sub v rfl (hread v)
  | and v1 v2 => exact hm.sameUnder_computed h .and v1 (hread v1) (hread v2)
  | or v1 v2 => exact hm.sameUnder_computed h .or v1 (hread v1) (hread v2)
  | xor v1 v2 => exact hm.sameUnder_computed h .xor v1 (hread v1) (hread v2)
  | shl v => exact hm.sameUnder_computed h .shl v (hread v) rfl
  | shr v => exact hm.sameUnder_computed h .shr v (hread v) rfl
  | cmp v1 v2 => exact hcompared (hread v1) (hread v2)
  | cmpi v n => exact hcompared (hread v) rfl
  | jmp name => exact sameUnder_next (respects_forgetCarry_labelBranch true name s u h)
  | branch c name =>
    have hc : condHolds c s.flags = condHolds c u.flags := eq_of_masked (fun r => condHolds c r.flags) h (hm.cond c)
    rw [execLine, execLine, hc]
    exact sameUnder_next (respects_forgetCarry_labelBranch _ name s u h)
  | assign dst p =>
    cases p with
    | imm n => exact hm.sameUnder_moved h dst rfl
    | var v =>
      rw [execLine, execLine, lineAssign, lineAssign, lineCopy, lineCopy, hread v]
      exact sameUnder_next (hm.advance _ _ (respects_forgetCarry_copy _ dst s u h))
  | assignAdd dst a b => exact hm.sameUnder_computed h .add dst (hvalue _) (hvalue _)
  | assignSub dst a b => exact hm.sameUnder_computed h .sub dst (hvalue a) (hvalue b)
  | unparseable line => exact hm.sameUnder_advanced h

theorem microCycle_forgetCarry {s u : State} (h : forgetCarry s = forgetCarry u) :
    SameUnder forgetCarry (microCycle s) (microCycle u) := by
  have hm := mask_forgetCarry
  have hline : s.microLines[s.pc]? = u.microLines[u.pc]? :=
    eq_of_masked (fun r => r.microLines[r.pc]?) h fun _ => rfl
  have hfetched (line : Text) : forgetCarry (s.fetchLine line) = forgetCarry (u.fetchLine line) :=
    respects_of_eq (m := forgetCarry) (f := State.fetchLine line) (fun _ => rfl) s u h
  unfold microCycle
  rw [hline]
  split
  · exact sameUnder_next (hm.haltPastEnd s u h)
  · refine (execLine_forgetCarry _ (hm.emit .execute _ _ (hfetched _))).andThen fun t v htv => ?_
    exact sameUnder_next (hm.emit .writeback _ _ (hm.clearPend t v htv))

theorem step_forgetCarry {s u : State} (h : forgetCarry s = forgetCarry u) :
    SameUnder forgetCarry (step s) (step u) := by
  have hhalted : s.halted = u.halted := eq_of_masked State.halted h fun _ => rfl
  have hmode : s.mode = u.mode := eq_of_masked State.mode h fun _ => rfl
  have hfuel : s.isaItems.length - s.pc = u.isaItems.length - u.pc :=
    eq_of_masked (fun r => r.isaItems.length - r.pc) h fun _ => rfl
  unfold step stepCycle
  rw [hhalted, hmode]
  split
  · rfl
  · split
    · rw [isaCycle, isaCycle, hfuel]
      exact isaLoop_forgetCarry _ (mask_forgetCarry.clearPend s u h)
    · exact microCycle_forgetCarry h

/-- What a masked state forgets can be put back. -/
theorem restore_carry {t u : State} (h : forgetCarry t = forgetCarry u) :
    { u with flags := { u.flags with c := t.flags.c }, mirror := t.mirror } = t :=
  calc { u with flags := { u.flags with c := t.flags.c }, mirror := t.mirror }
    _ = { forgetCarry u with flags := { (forgetCarry u).flags with c := t.flags.c }, mirror := t.mirror } := rfl
    _ = { forgetCarry t with flags := { (forgetCarry t).flags with c := t.flags.c }, mirror := t.mirror } := by rw [h]
    _ = t := rfl

/-- Settles O49: the two states are equal but for what `forgetCarry` forgets, so are the states after the step, and
putting back C and the mirrors makes them equal. -/
theorem nothingReadsCarryOrMirrors : Obligations.NothingReadsCarryOrMirrors := by
  intro s t b m h
  have hmasked : forgetCarry s = forgetCarry { s with flags := { s.flags with c := b }, mirror := m } := rfl
  rcases (step_forgetCarry hmasked).cases with heq | ⟨t', u, ht, hu, htu⟩
  · exact ⟨t, heq ▸ h, rfl⟩
  · cases h.symm.trans ht
    exact ⟨u, hu, restore_carry htu⟩

end Sys2Proof.Machine

/-! The pending immediate of an EXT that no CMP follows (R133, R134). -/

namespace Sys2Proof

theorem pairWith_eq_ext {i : Instr} {following : Option Instr} {imm : Byte} (h : pairWith i following = .ext imm) :
    i = .ext imm ∧ ∀ rd rs, following ≠ some (.cmp rd rs) := by
  unfold pairWith at h
  split at h
  · cases h
  · rename_i hpair
    exact ⟨h, fun rd rs hcmp => hpair imm rd rs h hcmp⟩

/-- A word that decodes alone to an EXT is an EXT word, and the word after it is no CMP (R79). -/
theorem decode_eq_ext {w : Word} {ws rest : List Word} {imm : Byte} (h : decode (w :: ws) = .ok (.ext imm, rest)) :
    decodeWord w = .ext imm ∧ ∀ w' ws' rd rs, ws = w' :: ws' → decodeWord w' ≠ .cmp rd rs := by
  rw [decode_cons] at h
  obtain ⟨hext, hnext⟩ := pairWith_eq_ext (Prod.mk.inj (Except.ok.inj h)).1
  refine ⟨hext, ?_⟩
  rintro w' ws' rd rs rfl hcmp
  exact hnext rd rs (congrArg some hcmp)

/-- Only a CMP word decodes to CMP. -/
theorem decode_eq_cmp {w : Word} {ws rest : List Word} {rd : BitVec 4} {rs : Byte}
    (h : decode (w :: ws) = .ok (.cmp rd rs, rest)) : decodeWord w = .cmp rd rs := by
  rw [decode_cons] at h
  have hpair := (Prod.mk.inj (Except.ok.inj h)).1
  unfold pairWith at hpair
  split at hpair
  · cases hpair
  · exact hpair

end Sys2Proof

namespace Sys2Proof.Machine

theorem respects_clearPend_alu (f : AluFn) (a b : Byte) : Respects State.clearPend (State.alu f a b) :=
  respects_of_eq fun s => by rw [State.alu_eq, State.alu_eq]; rfl

theorem respects_clearPend_aluTo (f : AluFn) (a b : Byte) (v : Var) : Respects State.clearPend (State.aluTo f a b v) :=
  respects_of_eq fun s => by rw [State.aluTo_eq, State.aluTo_eq]; rfl

theorem respects_clearPend_takeBranch (disp : Byte) : Respects State.clearPend (State.takeBranch disp) := by
  refine respects_of_eq fun s => ?_
  have htarget : branchTarget disp s.clearPend = branchTarget disp s := rfl
  unfold State.takeBranch
  rw [htarget]
  split <;> rfl

/-- No instruction but CMP reads `pend` (R33). -/
theorem mask_clearPend : Mask State.clearPend where
  readVar _ _ := rfl
  pc _ := rfl
  program _ := rfl
  fetchWord _ _ _ := rfl
  emit _ := respects_of_eq fun _ => rfl
  haltPastEnd := respects_of_eq fun _ => rfl
  cond _ _ := rfl
  advance := respects_of_eq fun _ => rfl
  halt := respects_of_eq fun _ => rfl
  raiseMalformed := respects_of_eq fun _ => rfl
  clearPend := respects_of_eq fun _ => rfl
  latch _ := respects_of_eq fun _ => rfl
  takeBranch := respects_clearPend_takeBranch
  writeVar _ _ := respects_of_eq fun _ => rfl
  alu := respects_clearPend_alu
  aluTo := respects_clearPend_aluTo

theorem finishExecute_of_clearPend_eq (i : Instr) {s u : State} (h : s.clearPend = u.clearPend) :
    finishExecute i s = finishExecute i u := by
  unfold finishExecute
  rw [h]

/-- An instruction that is no CMP word ends its step the same from any pending immediate (R134). -/
theorem executePhase_of_clearPend_eq {i : Instr} (hi : ∀ rd rs, i ≠ .cmp rd rs) {s u : State}
    (h : s.clearPend = u.clearPend) : executePhase i s = executePhase i u := by
  have hbegin := mask_clearPend.beginExecute i s u h
  refine (mask_clearPend.sameUnder_exec hbegin i (.inr hi)).onNext_eq fun t v htv => ?_
  rw [finishExecute_of_clearPend_eq i htv]

theorem eq_ext_of_isPrefixWord {i : Instr} (h : isPrefixWord i = true) : ∃ imm, i = .ext imm := by
  cases i with
  | ext imm => exact ⟨imm, rfl⟩
  | _ => cases h

/-- The words one item further on. -/
theorem wordsAtPc_of_next {s t : State} {w : Word} {ws : List Word} (hitems : t.isaItems = s.isaItems)
    (hpc : t.pc = s.pc + 1) (h : s.wordsAtPc = w :: ws) : t.wordsAtPc = ws := by
  have htail := congrArg List.tail h
  rwa [State.wordsAtPc, ← List.map_tail, List.tail_drop, ← hpc, ← hitems] at htail

/-- From a word that is no CMP the loop does not depend on the pending immediate. -/
theorem isaLoop_of_clearPend_eq {s u : State} (h : s.clearPend = u.clearPend)
    (hcmp : ∀ w ws rd rs, s.wordsAtPc = w :: ws → decodeWord w ≠ .cmp rd rs) (fuel : Nat) :
    isaLoop fuel s = isaLoop fuel u := by
  have hend : s.haltPastEnd = u.haltPastEnd := eq_of_masked State.haltPastEnd h fun _ => rfl
  rcases mask_clearPend.fetchInstr_cases h with ⟨hs, hu⟩ | ⟨i, s1, u1, hs, hu, h1⟩
  · rw [isaLoop_of_end hs, isaLoop_of_end hu, hend]
  · cases fuel with
    | zero => exact congrArg Host.Outcome.next hend
    | succ fuel =>
      cases hi : isPrefixWord i with
      | true =>
        obtain ⟨imm, rfl⟩ := eq_ext_of_isPrefixWord hi
        rw [isaLoop_of_ext hs, isaLoop_of_ext hu, eq_of_masked (State.latch imm) h1 fun _ => rfl]
      | false =>
        rw [isaLoop_of_instr hs hi, isaLoop_of_instr hu hi, executePhase_of_clearPend_eq ?_ h1]
        rintro rd rs rfl
        obtain ⟨⟨rest, hdecode⟩, -⟩ := fetchInstr_cases hs
        cases hw : s.wordsAtPc with
        | nil => rw [hw] at hdecode; cases hdecode
        | cons w ws =>
          rw [hw] at hdecode
          exact hcmp w ws rd rs hw (decode_eq_cmp hdecode)

/-- Settles O42: after the EXT, the loop goes on from a word that is no CMP, and does not depend on what EXT latched. -/
theorem extWithoutCompareIsDropped : Obligations.ExtWithoutCompareIsDropped := by
  intro s items imm w ws rest hrun hprogram hwords hdecode
  have hitems : s.isaItems = items := by rw [State.isaItems, hprogram]
  have hmode : (s.fetchWord s.pc w).advance.mode = .isa := by
    show s.mode = .isa
    rw [State.mode, hprogram]
  obtain ⟨-, -, hstep⟩ := stepRunsTheDecodedInstruction s items _ w ws rest hrun hprogram hwords hdecode
  rw [hstep imm rfl, exec_ext, step_of_isa (s := (s.fetchWord s.pc w).advance) hrun hmode, ← hitems]
  have hsame : ((s.clearPend.fetchWord s.pc w).latch imm).clearPend =
      (s.fetchWord s.pc w).advance.clearPend.clearPend :=
    rfl
  refine isaLoop_of_clearPend_eq hsame (fun w' ws' rd rs hnext => ?_) _
  have hatPc : s.wordsAtPc = w :: ws := by rw [← hwords, ← hitems, State.wordsAtPc]
  have hrest := wordsAtPc_of_next (s := s) (t := (s.clearPend.fetchWord s.pc w).latch imm) rfl rfl hatPc
  exact (decode_eq_ext hdecode).2 w' ws' rd rs (hrest.symm.trans hnext)

end Sys2Proof.Machine

/-! The pseudo-code of R141. -/

namespace Sys2Proof.Machine

theorem decide_eight_lt_rd (rd : BitVec 4) : decide (8 < rd.toNat) = !validRd rd := by
  rw [validRd, ← decide_not, decide_eq_decide, Nat.not_le]

theorem decide_eight_lt_rs (rs : Byte) : decide (8 < rs.toNat) = !validRs rs := by
  rw [validRs, ← decide_not, decide_eq_decide, Nat.not_le]

/-- The reserved conditions are the codes above 7 (R78, R82). -/
theorem decodeBranch_wellFormed (dst : BitVec 4) (arg : Byte) :
    (decodeBranch dst arg).wellFormed = !decide (7 < dst.toNat) := by
  unfold decodeBranch
  split
  case h_9 =>
    have hcode : 7 < dst.toNat := by
      simp only [imp_false] at *
      omega
    simp [Instr.wellFormed, hcode]
  all_goals
    rename_i hcode
    simp [Instr.wellFormed, hcode]

/-- The check of R141 is well-formedness, but for a CMP word with a pending immediate (R82, R83). -/
theorem malformedWord_eq_not_wellFormed {op dst : BitVec 4} {arg : Byte} {pend : Option Byte}
    (hcmp : op = 0xD#4 → pend = none) : malformedWord op dst arg pend = !(decodeFields op dst arg).wellFormed := by
  unfold decodeFields
  split
  case h_1 hop => split <;> simp [malformedWord, hop, Instr.wellFormed]
  case h_12 hop => split <;> simp [malformedWord, hop, Instr.wellFormed, decide_eight_lt_rd]
  case h_14 hop =>
    have hnone := hcmp (BitVec.eq_of_toNat_eq hop)
    simp [malformedWord, hop, hnone, Instr.wellFormed, decide_eight_lt_rd, decide_eight_lt_rs]
  case h_16 =>
    have hlt := op.isLt
    have hop : op.toNat = 15 := by
      simp only [imp_false] at *
      omega
    simp [malformedWord, hop, decodeBranch_wellFormed]
  all_goals
    rename_i hop
    simp [malformedWord, hop, Instr.wellFormed, decide_eight_lt_rd, decide_eight_lt_rs]

/-- The check of R141 of a CMP word with a pending immediate is that of its `dst4` (R79, R83). -/
theorem malformedWord_of_pend (dst : BitVec 4) (arg imm : Byte) :
    malformedWord 0xD#4 dst arg (some imm) = !validRd dst := by
  simp [malformedWord, decide_eight_lt_rd]

/-- Only opcode 0xD is CMP (R75). -/
theorem decodeWord_eq_cmp {w : Word} {rd : BitVec 4} {rs : Byte} (h : decodeWord w = .cmp rd rs) :
    op4 w = 0xD#4 ∧ dst4 w = rd := by
  unfold decodeWord decodeFields at h
  split at h
  case h_14 hop =>
    cases h
    exact ⟨BitVec.eq_of_toNat_eq hop, rfl⟩
  case h_1 => split at h <;> cases h
  case h_12 => split at h <;> cases h
  case h_16 =>
    unfold decodeBranch at h
    split at h <;> cases h
  all_goals cases h

theorem executePhase_of_wellFormed {i : Instr} (h : i.wellFormed = true) (s : State) :
    executePhase i s = onNext (exec i (s.emit .execute)) (fun t => .next (t.clearPend.emit .writeback)) := by
  simp only [executePhase, beginExecute, finishExecute, h, if_true]

/-- An ill-formed word raises MalformedInstruction, with no phase event (R82, R83, R143). -/
theorem executePhase_of_malformed {i : Instr} {s : State} (h : i.wellFormed = false)
    (hcmpi : ∀ rd imm, i ≠ .cmpi rd imm)
    (hcmp : s.pend = none ∨ ∀ rd rs, i ≠ .cmp rd rs) : executePhase i s = .next s.raiseMalformed := by
  have hexec : exec i s = .next s.raiseMalformed := by
    by_cases hi : ∃ rd rs, i = .cmp rd rs
    · obtain ⟨rd, rs, rfl⟩ := hi
      rw [exec_cmp_of_no_pend (hcmp.resolve_right fun hne => hne rd rs rfl), withRdRs_invalid h]
    · exact exec_of_not_wellFormed h (fun rd rs hi' => hi ⟨rd, rs, hi'⟩) hcmpi s
  simp only [executePhase, beginExecute, finishExecute, h, Bool.false_eq_true, if_false, hexec]
  rfl

theorem specLoop_of_ext {s : State} {w : Word} {ws : List Word} {imm : Byte} (hw : s.wordsAtPc = w :: ws)
    (hext : decodeWord w = .ext imm) (fuel : Nat) :
    specLoop (fuel + 1) s = specLoop fuel ((s.fetchWord s.pc w).latch imm) := by
  obtain ⟨hop, hdst, rfl⟩ := (decodeWord_ext w imm).mp hext
  rw [specLoop, hw]
  exact if_pos ⟨hop, hdst⟩

theorem specLoop_of_word {s : State} {w : Word} {ws : List Word} (hw : s.wordsAtPc = w :: ws)
    (hext : ∀ imm, decodeWord w ≠ .ext imm) (fuel : Nat) :
    specLoop (fuel + 1) s =
      if malformedWord (op4 w) (dst4 w) (arg8 w) s.pend then .next (s.fetchWord s.pc w).raiseMalformed
      else onNext (exec (decodeWord w) ((s.fetchWord s.pc w).emit .execute))
        (fun t => .next (t.clearPend.emit .writeback)) := by
  have hno : ¬ (op4 w = 0#4 ∧ dst4 w = 0xE#4) := fun ⟨hop, hdst⟩ =>
    hext _ ((decodeWord_ext w _).mpr ⟨hop, hdst, rfl⟩)
  rw [specLoop, hw]
  exact if_neg hno

/-- The pseudo-code executes a word that is no EXT, and no CMP with a pending immediate, as the model does (R141). -/
theorem specLoop_single {s : State} {w : Word} {ws : List Word} (hw : s.wordsAtPc = w :: ws)
    (hext : ∀ imm, decodeWord w ≠ .ext imm) (hcmp : s.pend = none ∨ ∀ rd rs, decodeWord w ≠ .cmp rd rs) (fuel : Nat) :
    specLoop (fuel + 1) s = executePhase (decodeWord w) (s.fetchWord s.pc w) := by
  have hpend : op4 w = 0xD#4 → s.pend = none := fun hop => hcmp.resolve_right fun hne => hne _ _ (decodeWord_cmp hop)
  have hcheck : malformedWord (op4 w) (dst4 w) (arg8 w) s.pend = !(decodeWord w).wellFormed :=
    malformedWord_eq_not_wellFormed hpend
  rw [specLoop_of_word hw hext, hcheck]
  cases hwf : (decodeWord w).wellFormed with
  | true => exact (executePhase_of_wellFormed hwf _).symm
  | false => exact (executePhase_of_malformed (s := s.fetchWord s.pc w) hwf (decodeWord_ne_cmpi w) hcmp).symm

/-- The pseudo-code executes the CMP word after an EXT as the model does the pair (R141, R203). -/
theorem specLoop_pair {s : State} {w : Word} {ws : List Word} {rd : BitVec 4} {rs imm : Byte}
    (hw : (s.latch imm).wordsAtPc = w :: ws) (hcmp : decodeWord w = .cmp rd rs) (fuel : Nat) :
    specLoop (fuel + 1) (s.latch imm) = executePhase (.cmpi rd imm) (s.fetchWord (s.pc + 1) w) := by
  obtain ⟨hop, rfl⟩ := decodeWord_eq_cmp hcmp
  have hnext := specLoop_of_word hw (by rw [hcmp]; exact fun _ => Instr.noConfusion) fuel
  rw [hnext, hop, State.latch_pend, malformedWord_of_pend, hcmp]
  cases hrd : validRd (dst4 w) with
  | true =>
    rw [executePhase_of_wellFormed (i := .cmpi (dst4 w) imm) hrd]
    rfl
  | false =>
    rw [executePhase, exec_cmpi, withRd_invalid hrd]
    have hwf : (Instr.cmpi (dst4 w) imm).wellFormed = false := hrd
    simp only [beginExecute, finishExecute, hwf, Bool.false_eq_true, if_false]
    rfl

/-- The loop of the model is the loop of the pseudo-code, by induction on the words to the end: an EXT before a CMP is
the pair, any other EXT is consumed by both, and any other word ends both. -/
theorem isaLoop_eq_specLoop : ∀ (fuel : Nat) (s : State), fuel = s.isaItems.length - s.pc →
    (s.pend = none ∨ ∀ w ws rd rs, s.wordsAtPc = w :: ws → decodeWord w ≠ .cmp rd rs) →
    isaLoop fuel s = specLoop fuel s := by
  intro fuel
  induction fuel with
  | zero => exact fun s _ _ => rfl
  | succ fuel ih =>
    intro s hfuel hpend
    cases hw : s.wordsAtPc with
    | nil =>
      rw [isaLoop_of_end (fetchInstr_of_end hw), specLoop, hw]
    | cons w ws =>
      have hfuel' : fuel = s.isaItems.length - (s.pc + 1) := by
        have hsucc := length_sub_eq_succ hw
        omega
      by_cases hext : ∃ imm, decodeWord w = .ext imm
      · obtain ⟨imm, hext⟩ := hext
        have hnext : ((s.fetchWord s.pc w).latch imm).wordsAtPc = ws := wordsAtPc_of_next (s := s) rfl rfl hw
        rw [specLoop_of_ext hw hext]
        by_cases hpair : ∃ w2 ws2 rd rs, ws = w2 :: ws2 ∧ decodeWord w2 = .cmp rd rs
        · obtain ⟨w2, ws2, rd, rs, rfl, hcmp⟩ := hpair
          have hmore : fuel = s.isaItems.length - (s.pc + 1 + 1) + 1 := hfuel'.trans (length_sub_eq_succ hnext)
          rw [isaLoop_of_instr (fetchInstr_pair hw (decode_pair hext hcmp ws2)) rfl, hmore, specLoop_pair hnext hcmp]
          rfl
        · have hcmp : ∀ w2 ws2 rd rs, ws = w2 :: ws2 → decodeWord w2 ≠ .cmp rd rs :=
            fun w2 ws2 rd rs hws hcmp => hpair ⟨w2, ws2, rd, rs, hws, hcmp⟩
          have hdecode : decode (w :: ws) = .ok (.ext imm, ws) :=
            hext ▸ decode_cons_alone fun _ w2 ws2 rd rs _ hws => hcmp w2 ws2 rd rs hws
          rw [isaLoop_of_ext (fetchInstr_single hw hdecode rfl)]
          exact ih _ hfuel' (.inr fun w2 ws2 rd rs hws => hcmp w2 ws2 rd rs (hnext.symm.trans hws))
      · have hext : ∀ imm, decodeWord w ≠ .ext imm := fun imm himm => hext ⟨imm, himm⟩
        have hdecode := decode_cons_alone (ws := ws) fun imm _ _ _ _ himm => absurd himm (hext imm)
        rw [isaLoop_of_instr (fetchInstr_single hw hdecode (size_decodeWord w)) (isPrefixWord_eq_false hext),
          specLoop_single hw hext (hpend.imp_right fun hne rd rs => hne w ws rd rs hw)]

/-- Settles O41: both loops start with no pending immediate. -/
theorem isaStepIsThePseudoCode : Obligations.IsaStepIsThePseudoCode := by
  intro s hrun hmode
  rw [step_of_isa hrun hmode]
  exact isaLoop_eq_specLoop _ s.clearPend rfl (.inl rfl)

end Sys2Proof.Machine

/-! The preprocessor over lines without an IF (R94). -/

namespace Sys2Proof.Machine

/-- With no IF pending, a line that is no IF line passes through, an ELSE or an END too (R101, R102). -/
theorem preprocessFrom_cons_plain {line : Text} (h : parseIf line = none) (counter : Nat) (rest : List Text) :
    preprocessFrom counter [] (line :: rest) = line :: preprocessFrom counter [] rest := by
  rw [preprocessFrom, h]
  dsimp only
  split
  · rfl
  · split <;> rfl

/-- Settles O51, by induction on the lines: no IF ever begins. -/
theorem preprocessorPassesPlainLines : Obligations.PreprocessorPassesPlainLines := by
  intro lines
  rw [preprocess]
  induction lines with
  | nil => exact fun _ => rfl
  | cons line rest ih =>
    intro h
    obtain ⟨hline, hrest⟩ := List.forall_mem_cons.mp h
    rw [preprocessFrom_cons_plain hline, ih hrest]

end Sys2Proof.Machine

/-! Pass 2, item by item (R112, R115). -/

namespace Sys2Proof.Machine

theorem op4_fixWord (w : Word) (offset : Int) : op4 (fixWord w offset) = op4 w := op4_mkWord _ _ _

theorem dst4_fixWord (w : Word) (offset : Int) : dst4 (fixWord w offset) = dst4 w := dst4_mkWord _ _ _

theorem arg8_fixWord (w : Word) (offset : Int) : arg8 (fixWord w offset) = byteOfInt offset := arg8_mkWord _ _ _

theorem fixItem_undefined {labels : List (Text × Nat)} {item : PendingItem} {name : Text}
    (hsite : item.site = some name)
    (hlabel : lookupLabel name labels = none) (index : Nat) :
    fixItem labels index item = .error (.undefinedLabel name) := by
  simp only [fixItem, hsite, hlabel]

theorem fixItem_outOfRange {labels : List (Text × Nat)} {item : PendingItem} {name : Text} {target index : Nat}
    (hsite : item.site = some name) (hlabel : lookupLabel name labels = some target)
    (hrange : branchOffset target index < -128 ∨ 127 < branchOffset target index) :
    fixItem labels index item = .error (.branchOutOfRange index (branchOffset target index)) := by
  simp only [fixItem, hsite, hlabel, if_pos hrange]

/-- A fixed item is the pending item, with the offset of its label put in if it is a site. -/
theorem fixItem_eq_ok {labels : List (Text × Nat)} {index : Nat} {item : PendingItem} {fixed : IsaItem}
    (h : fixItem labels index item = .ok fixed) :
    fixed.text = item.text ∧ ((item.site = none ∧ fixed.word = item.word) ∨
      ∃ name target, item.site = some name ∧ lookupLabel name labels = some target ∧
        -128 ≤ branchOffset target index ∧ branchOffset target index ≤ 127 ∧
        fixed.word = fixWord item.word (branchOffset target index)) := by
  rcases fixItem_cases labels index item with
    ⟨hsite, hfix⟩ | ⟨name, hsite, hlabel, hfix⟩ | ⟨name, target, hsite, hlabel, ⟨-, hfix⟩ | ⟨⟨hlow, hhigh⟩, hfix⟩⟩
  · cases hfix.symm.trans h
    exact ⟨rfl, .inl ⟨hsite, rfl⟩⟩
  · cases hfix.symm.trans h
  · cases hfix.symm.trans h
  · cases hfix.symm.trans h
    exact ⟨rfl, .inr ⟨name, target, hsite, hlabel, hlow, hhigh, rfl⟩⟩

theorem pass2_cons_eq_ok {labels : List (Text × Nat)} {index : Nat} {item : PendingItem} {rest : List PendingItem}
    {out : List IsaItem} (h : pass2 labels index (item :: rest) = .ok out) :
    ∃ fixed more, fixItem labels index item = .ok fixed ∧ pass2 labels (index + 1) rest = .ok more ∧
      out = fixed :: more := by
  rw [pass2] at h
  split at h
  · cases h
  · rename_i fixed hfixed
    split at h
    · cases h
    · rename_i more hmore
      cases h
      exact ⟨fixed, more, hfixed, hmore, rfl⟩

/-- Pass 2 keeps the number of items and fixes each at its own index, by induction on the items. -/
theorem pass2_eq_ok {labels : List (Text × Nat)} {items : List PendingItem} : ∀ {index : Nat} {out : List IsaItem},
    pass2 labels index items = .ok out → out.length = items.length ∧
      ∀ (c : Nat) (item : PendingItem), items[c]? = some item →
        ∃ fixed, out[c]? = some fixed ∧ fixItem labels (index + c) item = .ok fixed := by
  induction items with
  | nil =>
    intro index out h
    cases h
    exact ⟨rfl, fun c item hc => by cases hc⟩
  | cons first rest ih =>
    intro index out h
    obtain ⟨fixed, more, hfixed, hmore, rfl⟩ := pass2_cons_eq_ok h
    obtain ⟨hlength, hitems⟩ := ih hmore
    refine ⟨congrArg (· + 1) hlength, fun c item hc => ?_⟩
    cases c with
    | zero =>
      cases hc
      exact ⟨fixed, rfl, hfixed⟩
    | succ c =>
      obtain ⟨fixed', hout, hfixed'⟩ := hitems c item hc
      exact ⟨fixed', hout, by rwa [Nat.add_assoc, Nat.add_comm 1] at hfixed'⟩

/-- The first error of pass 2 is that of the first item with one (log entry 12). -/
theorem pass2_error_of_take {labels : List (Text × Nat)} {items : List PendingItem} {c : Nat} {item : PendingItem}
    {before : List IsaItem} {e : LoadError} (hc : items[c]? = some item)
    (hbefore : pass2 labels 0 (items.take c) = .ok before) (hfix : fixItem labels c item = .error e) :
    pass2 labels 0 items = .error e := by
  obtain ⟨hlt, hget⟩ := List.getElem?_eq_some_iff.mp hc
  have hsplit : items = items.take c ++ item :: items.drop (c + 1) := by
    rw [← hget, ← List.drop_eq_getElem_cons hlt, List.take_append_drop]
  have hlength : 0 + (items.take c).length = c := by
    rw [Nat.zero_add, List.length_take_of_le hlt.le]
  rw [hsplit, pass2_append, hbefore, hlength, pass2, hfix]

/-- A site whose label is not declared or whose offset is out of range makes pass 2 fail. -/
theorem pass2_error_of_bad_site {labels : List (Text × Nat)} {items : List PendingItem} {c : Nat} {item : PendingItem}
    {name : Text} (hc : items[c]? = some item) (hsite : item.site = some name)
    (hbad : ∀ target, lookupLabel name labels = some target →
      branchOffset target c < -128 ∨ 127 < branchOffset target c) : ∃ e, pass2 labels 0 items = .error e := by
  cases hpass : pass2 labels 0 items with
  | error e => exact ⟨e, rfl⟩
  | ok out =>
    obtain ⟨fixed, -, hfixed⟩ := (pass2_eq_ok hpass).2 c item hc
    rw [Nat.zero_add] at hfixed
    obtain ⟨-, ⟨hnone, -⟩ | ⟨name', target, hsite', hlabel, hlow, hhigh, -⟩⟩ := fixItem_eq_ok hfixed
    · rw [hsite] at hnone
      cases hnone
    · cases hsite.symm.trans hsite'
      have hrange := hbad target hlabel
      omega

/-- Settles O55: each item is fixed at its own index, and a bad site gives its error where the items before give none.
-/
theorem passTwoPutsEveryOffsetIn : Obligations.PassTwoPutsEveryOffsetIn := by
  intro labels items
  refine ⟨fun out hout => ?_, fun c item name hc hsite => ?_, fun _ _ => rfl, fun _ => rfl⟩
  · obtain ⟨hlength, hitems⟩ := pass2_eq_ok hout
    refine ⟨hlength, fun c item fixed hc hget => ?_⟩
    obtain ⟨fixed', hget', hfixed⟩ := hitems c item hc
    cases hget.symm.trans hget'
    rw [Nat.zero_add] at hfixed
    obtain ⟨htext, ⟨hnone, hword⟩ | ⟨name, target, hsome, hlabel, hlow, hhigh, hword⟩⟩ := fixItem_eq_ok hfixed
    · refine ⟨htext, fun _ => hword, fun name hsite => ?_⟩
      rw [hnone] at hsite
      cases hsite
    · refine ⟨htext, fun hnone => ?_, fun name' hsite => ?_⟩
      · rw [hsome] at hnone
        cases hnone
      · cases hsome.symm.trans hsite
        rw [hword]
        exact ⟨target, hlabel, hlow, hhigh, op4_fixWord _ _, dst4_fixWord _ _, arg8_fixWord _ _⟩
  · refine ⟨pass2_error_of_bad_site hc hsite, fun before hbefore => ⟨fun hnone => ?_, fun target hlabel hrange => ?_⟩⟩
    · exact pass2_error_of_take hc hbefore (fixItem_undefined hsite hnone c)
    · exact pass2_error_of_take hc hbefore (fixItem_outOfRange hsite hlabel hrange)

end Sys2Proof.Machine

/-! Pass 1 and the micro-mode loader (R100, R111). -/

namespace Sys2Proof.Machine

/-- Every label is an index of a program of `length` items, or its end. -/
def LabelsWithin (length : Nat) (labels : List (Text × Nat)) : Prop := ∀ p ∈ labels, p.2 ≤ length

theorem LabelsWithin.nil (length : Nat) : LabelsWithin length [] := fun _ hp => by cases hp

theorem LabelsWithin.mono {m n : Nat} {labels : List (Text × Nat)} (h : LabelsWithin m labels) (hmn : m ≤ n) :
    LabelsWithin n labels := fun p hp => (h p hp).trans hmn

/-- A label declared at the end of the items so far is within them. -/
theorem LabelsWithin.declare {n : Nat} {labels : List (Text × Nat)} (h : LabelsWithin n labels) (name : Text) :
    LabelsWithin n (labels ++ [(name, n)]) := by
  intro p hp
  rcases List.mem_append.mp hp with hold | hnew
  · exact h p hold
  · rw [List.mem_singleton.mp hnew]

/-- One line of pass 1 declares a label or adds the line's items. -/
theorem pass1_cons_eq_ok {strict : Bool} {items : List PendingItem} {labels : List (Text × Nat)} {line : Text}
    {rest : List Text} {out : List PendingItem × List (Text × Nat)}
    (h : pass1 strict items labels (line :: rest) = .ok out) :
    (∃ name, pass1 strict items (labels ++ [(name, items.length)]) rest = .ok out) ∨
      pass1 strict (items ++ pendingItems line (parseLine line)) labels rest = .ok out := by
  rw [pass1] at h
  split at h
  · split at h
    · cases h
    · exact .inl ⟨_, h⟩
  · split at h
    · cases h
    · exact .inr h

/-- What declaring a label and adding a line's items keep holds after pass 1. -/
theorem pass1_keeps {P : List PendingItem → List (Text × Nat) → Prop} {strict : Bool}
    (hlabel : ∀ items labels name, P items labels → P items (labels ++ [(name, items.length)]))
    (hline : ∀ items labels line op, P items labels → P (items ++ pendingItems line op) labels) (lines : List Text) :
    ∀ {items labels out}, P items labels → pass1 strict items labels lines = .ok out → P out.1 out.2 := by
  induction lines with
  | nil =>
    intro items labels out hP h
    cases h
    exact hP
  | cons line rest ih =>
    intro items labels out hP h
    rcases pass1_cons_eq_ok h with ⟨name, h⟩ | h
    · exact ih (hlabel _ _ name hP) h
    · exact ih (hline _ _ line _ hP) h

/-- One line of the micro-mode loader declares a label or is an item. -/
theorem microWalk_cons_eq_ok {strict : Bool} {items : List Text} {labels : List (Text × Nat)} {line : Text}
    {rest : List Text} {out : List Text × List (Text × Nat)}
    (h : microWalk strict items labels (line :: rest) = .ok out) :
    (∃ name, microWalk strict items (labels ++ [(name, items.length)]) rest = .ok out) ∨
      microWalk strict (items ++ [line]) labels rest = .ok out := by
  rw [microWalk] at h
  split at h
  · split at h
    · cases h
    · exact .inl ⟨_, h⟩
  · split at h
    · cases h
    · exact .inr h

/-- The micro-mode loader leaves its labels in range, by induction on the lines (R100). -/
theorem microWalk_labelsWithin {strict : Bool} (lines : List Text) : ∀ {items labels out},
    LabelsWithin items.length labels → microWalk strict items labels lines = .ok out →
      LabelsWithin out.1.length out.2 := by
  induction lines with
  | nil =>
    intro items labels out hlabels h
    cases h
    exact hlabels
  | cons line rest ih =>
    intro items labels out hlabels h
    rcases microWalk_cons_eq_ok h with ⟨name, h⟩ | h
    · exact ih (hlabels.declare name) h
    · exact ih (hlabels.mono (by simp)) h

/-- A program that builds is of its mode, and a micro-mode program has its labels in range (R100, R270). -/
theorem buildProgram_eq_ok {p : Params} {m : Mode} {lines : List Text} {program : Program}
    (h : buildProgram p m lines = .ok program) :
    (m = .isa ∧ ∃ items, program = .isa items) ∨
      (m = .micro ∧ ∃ items labels, program = .micro items labels ∧ LabelsWithin items.length labels) := by
  cases m with
  | isa =>
    rw [buildProgram] at h
    split at h
    · cases h
    · split at h
      · cases h
        exact .inl ⟨rfl, _, rfl⟩
      · cases h
  | micro =>
    rw [buildProgram] at h
    split at h
    · cases h
    · rename_i items labels hwalk
      split at h
      · cases h
        exact .inr ⟨rfl, items, labels, rfl, microWalk_labelsWithin _ (LabelsWithin.nil _) hwalk⟩
      · cases h

theorem loadProgram_eq_ok {lines : List Text} {s t : State} (h : s.loadProgram lines = .ok t) :
    ∃ program, buildProgram s.params s.mode lines = .ok program ∧ t = { s with program := program }.resetRegisters := by
  rw [State.loadProgram] at h
  split at h
  · cases h
  · rename_i program hbuild
    cases h
    exact ⟨program, hbuild, rfl⟩

/-- Settles O56: a load is building the program, then the reset of the registers; a load error has no new state. -/
theorem loadInstallsAProgramOrChangesNothing : Obligations.LoadInstallsAProgramOrChangesNothing := by
  intro lines s
  constructor
  · intro t h
    obtain ⟨program, hbuild, rfl⟩ := loadProgram_eq_ok h
    rcases buildProgram_eq_ok hbuild with ⟨hmode, items, rfl⟩ | ⟨hmode, items, labels, rfl, hlabels⟩
    · exact ⟨hbuild, hmode.symm, rfl, rfl⟩
    · exact ⟨hbuild, hmode.symm, List.all_eq_true.mpr fun p hp => decide_eq_true (hlabels p hp), rfl⟩
  · intro e h
    rw [hostMove, h]

/-! The branch words of an assembled program (R115, R212). -/

/-- An instruction none of whose words has the opcode of JMP or a branch. -/
def NoBranchWord (i : Instr) : Prop := ∀ w ∈ encode i, op4 w ≠ 0xE#4 ∧ op4 w ≠ 0xF#4

theorem noBranchWord_loadInto (dst : Var) (o : Operand) : NoBranchWord (loadInto dst o) := by
  cases o <;> simp [NoBranchWord, loadInto, encode, op4_mkWord]

theorem noBranchWord_addTo (dst : Var) (o : Operand) : NoBranchWord (addTo dst o) := by
  cases o <;> simp [NoBranchWord, addTo, encode, op4_mkWord]

theorem noBranchWord_subFrom (dst : Var) (o : Operand) : NoBranchWord (subFrom dst o) := by
  cases o <;> simp [NoBranchWord, subFrom, encode, op4_mkWord]

theorem noBranchWord_neg (rd : BitVec 4) : NoBranchWord (.neg rd) := by
  simp [NoBranchWord, encode, op4_mkWord]

/-- A line that names no label is lowered to no branch word (R111, R113). -/
theorem noBranchWord_of_no_site {op : LineOp} (h : op.site = none) : ∀ i ∈ lowerLine op, NoBranchWord i := by
  cases op with
  | jmp name => cases h
  | branch c name => cases h
  | assign dst o => exact List.forall_mem_singleton.mpr (noBranchWord_loadInto dst o)
  | assignAdd dst a b => exact lowerAdd_forall (noBranchWord_loadInto dst) (noBranchWord_addTo dst) a b
  | assignSub dst a b =>
    exact lowerSub_forall (noBranchWord_loadInto dst) (noBranchWord_addTo dst) (noBranchWord_subFrom dst)
      (noBranchWord_neg _) a b
  | _ => simp [lowerLine, NoBranchWord, encode, op4_mkWord]

/-- Every pending branch word waits for a label. -/
def BranchesAreSites (items : List PendingItem) : Prop :=
  ∀ item ∈ items, op4 item.word = 0xE#4 ∨ op4 item.word = 0xF#4 → item.site ≠ none

theorem branchesAreSites_pendingItems (line : Text) (op : LineOp) : BranchesAreSites (pendingItems line op) := by
  intro item hitem hbranch hnone
  rw [site_of_mem_pendingItems hitem] at hnone
  obtain ⟨w, hw, rfl⟩ := List.mem_map.mp hitem
  obtain ⟨i, hi, hw⟩ := List.mem_flatMap.mp hw
  obtain ⟨hE, hF⟩ := noBranchWord_of_no_site hnone i hi w hw
  exact hbranch.elim hE hF

theorem BranchesAreSites.append {xs ys : List PendingItem} (hx : BranchesAreSites xs) (hy : BranchesAreSites ys) :
    BranchesAreSites (xs ++ ys) := fun item hitem =>
  (List.mem_append.mp hitem).elim (hx item) (hy item)

/-- Pass 1 leaves its labels within its items, and every branch word a site (R111). -/
theorem pass1_eq_ok {strict : Bool} {lines : List Text} {items : List PendingItem} {labels : List (Text × Nat)}
    (h : pass1 strict [] [] lines = .ok (items, labels)) :
    LabelsWithin items.length labels ∧ BranchesAreSites items := by
  refine pass1_keeps (P := fun items labels => LabelsWithin items.length labels ∧ BranchesAreSites items) ?_ ?_ lines
    ⟨LabelsWithin.nil _, fun _ hitem => by cases hitem⟩ h
  · exact fun items labels name hP => ⟨hP.1.declare name, hP.2⟩
  · exact fun items labels line op hP =>
      ⟨hP.1.mono (by simp), hP.2.append (branchesAreSites_pendingItems line op)⟩

theorem assemble_eq_ok {strict : Bool} {lines : List Text} {out : List IsaItem} (h : assemble strict lines = .ok out) :
    ∃ items labels, pass1 strict [] [] (preprocess lines) = .ok (items, labels) ∧ pass2 labels 0 items = .ok out := by
  rw [assemble] at h
  split at h
  · cases h
  · rename_i items labels hpass
    exact ⟨items, labels, hpass, h⟩

/-- Settles O54: a branch word was a site, its stored offset leads to its label, and the label is within the program. -/
theorem assembledBranchesStayInTheProgram : Obligations.AssembledBranchesStayInTheProgram := by
  intro strict lines out hout c fixed hc hbranch
  obtain ⟨items, labels, hpass1, hpass2⟩ := assemble_eq_ok hout
  obtain ⟨hlabels, hsites⟩ := pass1_eq_ok hpass1
  obtain ⟨hlength, hfix⟩ := pass2_eq_ok hpass2
  obtain ⟨hlt, -⟩ := List.getElem?_eq_some_iff.mp hc
  have hitem : items[c]? = some (items[c]'(hlength ▸ hlt)) := List.getElem?_eq_getElem _
  obtain ⟨fixed', hc', hfixed⟩ := hfix c _ hitem
  cases hc.symm.trans hc'
  rw [Nat.zero_add] at hfixed
  obtain ⟨-, ⟨hnone, hword⟩ | ⟨name, target, -, hlabel, hlow, hhigh, hword⟩⟩ := fixItem_eq_ok hfixed
  · rw [hword] at hbranch
    exact absurd hnone (hsites _ (List.mem_of_getElem? hitem) hbranch)
  · have htarget : target ≤ items.length := hlabels _ (lookupLabel_mem hlabel)
    have hlands := add_branchOffset target c
    rw [hword, arg8_fixWord, toInt_byteOfInt, wrap8_of_signed_range hlow hhigh, hlands, hlength]
    omega

end Sys2Proof.Machine
